-- ==== Sys2Proof/Word.lean ====
section
/-! DEFINITION. The widths of the machine: words, bytes, register numbers and access widths
(`00_scope.md` R5). -/

namespace Sys2Proof

/-- A register value, an address or an instruction word: 32 bits (R5: XLEN = ILEN = ADDR_BITS = 32). -/
abbrev Word := BitVec 32

/-- One byte of memory: 8 bits (R5). -/
abbrev Byte := BitVec 8

/-- The number of a general register, 0 to 31 (R5: NREGS = 32; R20). -/
abbrev Reg := Fin 32

/-- The three access widths of memory (R47: no instruction moves more than 4 bytes and none moves 3). -/
inductive Width where
  /-- one byte: `lb`, `lbu`, `sb` -/
  | byte
  /-- two bytes: `lh`, `lhu`, `sh` -/
  | half
  /-- four bytes: `lw`, `sw` and the instruction fetch -/
  | word
deriving DecidableEq, Repr

end Sys2Proof
end

