-- ==== Sys2Proof/Syntax.lean ====
section
/-! DEFINITION. The 37 instructions of Table B.1 (`00_scope.md` R2), one constructor per row of
`spec/opcode_table.json`, in the table's order. Operands stand in the assembly order of `30_encoding.md` R93.

Operand types hold what R78 to R83 give each field: `imm` is the 12-bit field of an I- or S-type word before
sign extension; `uimm` the 5-bit shift amount; `upimm` the 20 upper bits; `off` the 13-bit (branch) or 21-bit
(`jal`) byte offset whose bit 0 must be 0 (checked by `Instr.wf`). -/

namespace Sys2Proof

inductive Instr where
  /-- `lb rd, imm(rs1)` (R101) -/
  | lb (rd rs1 : Reg) (imm : BitVec 12)
  /-- `lh rd, imm(rs1)` (R102) -/
  | lh (rd rs1 : Reg) (imm : BitVec 12)
  /-- `lw rd, imm(rs1)` (R103) -/
  | lw (rd rs1 : Reg) (imm : BitVec 12)
  /-- `lbu rd, imm(rs1)` (R104) -/
  | lbu (rd rs1 : Reg) (imm : BitVec 12)
  /-- `lhu rd, imm(rs1)` (R105) -/
  | lhu (rd rs1 : Reg) (imm : BitVec 12)
  /-- `addi rd, rs1, imm` (R111) -/
  | addi (rd rs1 : Reg) (imm : BitVec 12)
  /-- `slli rd, rs1, uimm` (R112) -/
  | slli (rd rs1 : Reg) (uimm : BitVec 5)
  /-- `slti rd, rs1, imm` (R113) -/
  | slti (rd rs1 : Reg) (imm : BitVec 12)
  /-- `sltiu rd, rs1, imm` (R114) -/
  | sltiu (rd rs1 : Reg) (imm : BitVec 12)
  /-- `xori rd, rs1, imm` (R115) -/
  | xori (rd rs1 : Reg) (imm : BitVec 12)
  /-- `srli rd, rs1, uimm` (R116) -/
  | srli (rd rs1 : Reg) (uimm : BitVec 5)
  /-- `srai rd, rs1, uimm` (R117) -/
  | srai (rd rs1 : Reg) (uimm : BitVec 5)
  /-- `ori rd, rs1, imm` (R118) -/
  | ori (rd rs1 : Reg) (imm : BitVec 12)
  /-- `andi rd, rs1, imm` (R119) -/
  | andi (rd rs1 : Reg) (imm : BitVec 12)
  /-- `auipc rd, upimm` (R125) -/
  | auipc (rd : Reg) (upimm : BitVec 20)
  /-- `sb rs2, imm(rs1)` (R131) -/
  | sb (rs2 rs1 : Reg) (imm : BitVec 12)
  /-- `sh rs2, imm(rs1)` (R132) -/
  | sh (rs2 rs1 : Reg) (imm : BitVec 12)
  /-- `sw rs2, imm(rs1)` (R133) -/
  | sw (rs2 rs1 : Reg) (imm : BitVec 12)
  /-- `add rd, rs1, rs2` (R141) -/
  | add (rd rs1 rs2 : Reg)
  /-- `sub rd, rs1, rs2` (R142) -/
  | sub (rd rs1 rs2 : Reg)
  /-- `sll rd, rs1, rs2` (R143) -/
  | sll (rd rs1 rs2 : Reg)
  /-- `slt rd, rs1, rs2` (R144) -/
  | slt (rd rs1 rs2 : Reg)
  /-- `sltu rd, rs1, rs2` (R145) -/
  | sltu (rd rs1 rs2 : Reg)
  /-- `xor rd, rs1, rs2` (R146) -/
  | xor (rd rs1 rs2 : Reg)
  /-- `srl rd, rs1, rs2` (R147) -/
  | srl (rd rs1 rs2 : Reg)
  /-- `sra rd, rs1, rs2` (R148) -/
  | sra (rd rs1 rs2 : Reg)
  /-- `or rd, rs1, rs2` (R149) -/
  | or (rd rs1 rs2 : Reg)
  /-- `and rd, rs1, rs2` (R150) -/
  | and (rd rs1 rs2 : Reg)
  /-- `lui rd, upimm` (R126) -/
  | lui (rd : Reg) (upimm : BitVec 20)
  /-- `beq rs1, rs2, label` (R156) -/
  | beq (rs1 rs2 : Reg) (off : BitVec 13)
  /-- `bne rs1, rs2, label` (R157) -/
  | bne (rs1 rs2 : Reg) (off : BitVec 13)
  /-- `blt rs1, rs2, label` (R158) -/
  | blt (rs1 rs2 : Reg) (off : BitVec 13)
  /-- `bge rs1, rs2, label` (R159) -/
  | bge (rs1 rs2 : Reg) (off : BitVec 13)
  /-- `bltu rs1, rs2, label` (R160) -/
  | bltu (rs1 rs2 : Reg) (off : BitVec 13)
  /-- `bgeu rs1, rs2, label` (R161) -/
  | bgeu (rs1 rs2 : Reg) (off : BitVec 13)
  /-- `jalr rd, rs1, imm` (R171) -/
  | jalr (rd rs1 : Reg) (imm : BitVec 12)
  /-- `jal rd, label` (R172) -/
  | jal (rd : Reg) (off : BitVec 21)
deriving DecidableEq, Repr

end Sys2Proof
end

