-- ==== Sys2Proof/WellFormed.lean ====
section
/-! DEFINITION. Which terms of `Instr` are instructions a word can hold.

The operand types already keep R97's ranges of `imm`, `uimm`, `upimm` and the reach of an offset. What is left to
check is that a branch's or `jal`'s byte offset is even: bit 0 is not stored and is 0 (R74, R76, R80, R82, R97). -/

namespace Sys2Proof

/-- A branch offset's bit 0 is 0 (R80: "an even value in −4096 .. 4094"). -/
def branchOffsetWf (off : BitVec 13) : Bool := off.getLsbD 0 == false

/-- A `jal` offset's bit 0 is 0 (R82: "an even value in −1048576 .. 1048574"). -/
def jumpOffsetWf (off : BitVec 21) : Bool := off.getLsbD 0 == false

/-- The instruction is one some 32-bit word encodes. Every value of the other operands is legal (R87). -/
def Instr.wf : Instr → Bool
  | .beq _ _ off | .bne _ _ off | .blt _ _ off
  | .bge _ _ off | .bltu _ _ off | .bgeu _ _ off => branchOffsetWf off
  | .jal _ off => jumpOffsetWf off
  | .lb _ _ _ | .lh _ _ _ | .lw _ _ _ | .lbu _ _ _ | .lhu _ _ _
  | .addi _ _ _ | .slli _ _ _ | .slti _ _ _ | .sltiu _ _ _ | .xori _ _ _
  | .srli _ _ _ | .srai _ _ _ | .ori _ _ _ | .andi _ _ _
  | .auipc _ _ | .sb _ _ _ | .sh _ _ _ | .sw _ _ _
  | .add _ _ _ | .sub _ _ _ | .sll _ _ _ | .slt _ _ _ | .sltu _ _ _ | .xor _ _ _
  | .srl _ _ _ | .sra _ _ _ | .or _ _ _ | .and _ _ _
  | .lui _ _ | .jalr _ _ _ => true

end Sys2Proof
end

