-- ==== Sys2Proof/Decode.lean ====
section
/-! DEFINITION. Decoding and encoding (`30_encoding.md`): the fields of a word (R71 to R76), the immediates
(R78 to R83), the decoder over the opcode map (R84), its rejections by name (R88), the encoder, and the opcode
table's match and mask (R85). Also the little-endian packing of bytes (R41), which fetch and memory share. -/

namespace Sys2Proof

/-! ### Byte order -/

/-- The word whose bits 7:0 are the first byte, 15:8 the second, and so on (R41, R46: little-endian); bytes past
the fourth are lost, missing ones are 0. -/
def leWord : List Byte → Word
  | [] => 0#32
  | b :: bs => b.setWidth 32 ||| (leWord bs <<< 8)

/-- Byte `i` of a word: bits `8i+7 : 8i` (R41, R45). -/
def leByte (v : Word) (i : Nat) : Byte := v.extractLsb' (8 * i) 8

/-! ### Fields of a word (R71 to R76) -/

/-- `instr[6:0]` -/
def opField (w : Word) : BitVec 7 := w.extractLsb' 0 7
/-- `instr[14:12]` -/
def funct3Field (w : Word) : BitVec 3 := w.extractLsb' 12 3
/-- `instr[31:25]` -/
def funct7Field (w : Word) : BitVec 7 := w.extractLsb' 25 7

/-- A 5-bit register field as a register number: all 32 values are legal (R20, R87). -/
def regOfBits (b : BitVec 5) : Reg := b.toFin
/-- A register number as the 5 bits of its field. -/
def regBits (r : Reg) : BitVec 5 := BitVec.ofFin r

/-- `rd = instr[11:7]` -/
def rdField (w : Word) : Reg := regOfBits (w.extractLsb' 7 5)
/-- `rs1 = instr[19:15]` -/
def rs1Field (w : Word) : Reg := regOfBits (w.extractLsb' 15 5)
/-- `rs2 = instr[24:20]` -/
def rs2Field (w : Word) : Reg := regOfBits (w.extractLsb' 20 5)

/-- I-type immediate field `instr[31:20]` (R72, R78) -/
def immIField (w : Word) : BitVec 12 := w.extractLsb' 20 12
/-- S-type immediate field `instr[31:25], instr[11:7]` (R73, R79) -/
def immSField (w : Word) : BitVec 12 := w.extractLsb' 25 7 ++ w.extractLsb' 7 5
/-- B-type offset `instr[31], instr[7], instr[30:25], instr[11:8], 0` (R74, R80) -/
def immBField (w : Word) : BitVec 13 :=
  w.extractLsb' 31 1 ++ w.extractLsb' 7 1 ++ w.extractLsb' 25 6 ++ w.extractLsb' 8 4 ++ 0#1
/-- U-type `upimm = instr[31:12]` (R75, R81) -/
def immUField (w : Word) : BitVec 20 := w.extractLsb' 12 20
/-- J-type offset `instr[31], instr[19:12], instr[20], instr[30:21], 0` (R76, R82; `90_conflicts.md` C5) -/
def immJField (w : Word) : BitVec 21 :=
  w.extractLsb' 31 1 ++ w.extractLsb' 12 8 ++ w.extractLsb' 20 1 ++ w.extractLsb' 21 10 ++ 0#1
/-- Shift amount `instr[24:20]` (R83) -/
def uimmField (w : Word) : BitVec 5 := w.extractLsb' 20 5

/-! ### The decoder (R84) -/

/-- Why bytes are no instruction (R88). -/
inductive DecodeError where
  /-- `instr[6:0]` is none of the nine opcodes of Table B.1 -/
  | unknownOp (word : Word)
  /-- the opcode is known, and `funct3` or `funct7` selects no instruction under it -/
  | unknownFunct (word : Word)
  /-- fewer than the four bytes of an instruction (R70) -/
  | truncated
deriving DecidableEq, Repr

/-- Loads, `op = 0000011` (R84, R106). -/
def decodeLoad (w : Word) : Except DecodeError Instr :=
  if funct3Field w = 0b000#3 then .ok (.lb (rdField w) (rs1Field w) (immIField w))
  else if funct3Field w = 0b001#3 then .ok (.lh (rdField w) (rs1Field w) (immIField w))
  else if funct3Field w = 0b010#3 then .ok (.lw (rdField w) (rs1Field w) (immIField w))
  else if funct3Field w = 0b100#3 then .ok (.lbu (rdField w) (rs1Field w) (immIField w))
  else if funct3Field w = 0b101#3 then .ok (.lhu (rdField w) (rs1Field w) (immIField w))
  else .error (.unknownFunct w)

/-- Immediate arithmetic, `op = 0010011` (R84, R83, R120; `90_conflicts.md` C7). -/
def decodeAluImm (w : Word) : Except DecodeError Instr :=
  if funct3Field w = 0b000#3 then .ok (.addi (rdField w) (rs1Field w) (immIField w))
  else if funct3Field w = 0b001#3 then
    if funct7Field w = 0b0000000#7 then .ok (.slli (rdField w) (rs1Field w) (uimmField w))
    else .error (.unknownFunct w)
  else if funct3Field w = 0b010#3 then .ok (.slti (rdField w) (rs1Field w) (immIField w))
  else if funct3Field w = 0b011#3 then .ok (.sltiu (rdField w) (rs1Field w) (immIField w))
  else if funct3Field w = 0b100#3 then .ok (.xori (rdField w) (rs1Field w) (immIField w))
  else if funct3Field w = 0b101#3 then
    if funct7Field w = 0b0000000#7 then .ok (.srli (rdField w) (rs1Field w) (uimmField w))
    else if funct7Field w = 0b0100000#7 then .ok (.srai (rdField w) (rs1Field w) (uimmField w))
    else .error (.unknownFunct w)
  else if funct3Field w = 0b110#3 then .ok (.ori (rdField w) (rs1Field w) (immIField w))
  else .ok (.andi (rdField w) (rs1Field w) (immIField w))

/-- Stores, `op = 0100011` (R84, R134). -/
def decodeStore (w : Word) : Except DecodeError Instr :=
  if funct3Field w = 0b000#3 then .ok (.sb (rs2Field w) (rs1Field w) (immSField w))
  else if funct3Field w = 0b001#3 then .ok (.sh (rs2Field w) (rs1Field w) (immSField w))
  else if funct3Field w = 0b010#3 then .ok (.sw (rs2Field w) (rs1Field w) (immSField w))
  else .error (.unknownFunct w)

/-- Register arithmetic, `op = 0110011`: all seven bits of `funct7` take part (R84, R86, R151;
`90_conflicts.md` C6). -/
def decodeAluReg (w : Word) : Except DecodeError Instr :=
  if funct7Field w = 0b0000000#7 then
    if funct3Field w = 0b000#3 then .ok (.add (rdField w) (rs1Field w) (rs2Field w))
    else if funct3Field w = 0b001#3 then .ok (.sll (rdField w) (rs1Field w) (rs2Field w))
    else if funct3Field w = 0b010#3 then .ok (.slt (rdField w) (rs1Field w) (rs2Field w))
    else if funct3Field w = 0b011#3 then .ok (.sltu (rdField w) (rs1Field w) (rs2Field w))
    else if funct3Field w = 0b100#3 then .ok (.xor (rdField w) (rs1Field w) (rs2Field w))
    else if funct3Field w = 0b101#3 then .ok (.srl (rdField w) (rs1Field w) (rs2Field w))
    else if funct3Field w = 0b110#3 then .ok (.or (rdField w) (rs1Field w) (rs2Field w))
    else .ok (.and (rdField w) (rs1Field w) (rs2Field w))
  else if funct7Field w = 0b0100000#7 then
    if funct3Field w = 0b000#3 then .ok (.sub (rdField w) (rs1Field w) (rs2Field w))
    else if funct3Field w = 0b101#3 then .ok (.sra (rdField w) (rs1Field w) (rs2Field w))
    else .error (.unknownFunct w)
  else .error (.unknownFunct w)

/-- Branches, `op = 1100011` (R84, R162). -/
def decodeBranch (w : Word) : Except DecodeError Instr :=
  if funct3Field w = 0b000#3 then .ok (.beq (rs1Field w) (rs2Field w) (immBField w))
  else if funct3Field w = 0b001#3 then .ok (.bne (rs1Field w) (rs2Field w) (immBField w))
  else if funct3Field w = 0b100#3 then .ok (.blt (rs1Field w) (rs2Field w) (immBField w))
  else if funct3Field w = 0b101#3 then .ok (.bge (rs1Field w) (rs2Field w) (immBField w))
  else if funct3Field w = 0b110#3 then .ok (.bltu (rs1Field w) (rs2Field w) (immBField w))
  else if funct3Field w = 0b111#3 then .ok (.bgeu (rs1Field w) (rs2Field w) (immBField w))
  else .error (.unknownFunct w)

/-- `jalr`, `op = 1100111`, `funct3 = 000` only (R84, R88). -/
def decodeJalr (w : Word) : Except DecodeError Instr :=
  if funct3Field w = 0b000#3 then .ok (.jalr (rdField w) (rs1Field w) (immIField w))
  else .error (.unknownFunct w)

/-- The instruction a 32-bit word encodes, or why it is none: the nine opcodes of Table B.1 (R84), and every
other word rejected (R88, R91). -/
def decode (w : Word) : Except DecodeError Instr :=
  if opField w = 0b0000011#7 then decodeLoad w
  else if opField w = 0b0010011#7 then decodeAluImm w
  else if opField w = 0b0010111#7 then .ok (.auipc (rdField w) (immUField w))
  else if opField w = 0b0100011#7 then decodeStore w
  else if opField w = 0b0110011#7 then decodeAluReg w
  else if opField w = 0b0110111#7 then .ok (.lui (rdField w) (immUField w))
  else if opField w = 0b1100011#7 then decodeBranch w
  else if opField w = 0b1100111#7 then decodeJalr w
  else if opField w = 0b1101111#7 then .ok (.jal (rdField w) (immJField w))
  else .error (.unknownOp w)

/-- Decode the instruction at the front of a list of bytes, lowest address first, and give the bytes after it:
every instruction is four bytes (R70), packed little-endian (R46). -/
def decodeBytes : List Byte → Except DecodeError (Instr × List Byte)
  | b0 :: b1 :: b2 :: b3 :: rest =>
    match decode (leWord [b0, b1, b2, b3]) with
    | .ok i => .ok (i, rest)
    | .error e => .error e
  | _ => .error .truncated

/-- The instruction the decoder reads from the word `w` of `nbits` bits, numbered as `spec/opcode_table.json`
numbers them: its four bytes are laid out as memory holds them and decoded. No row is longer than 32 bits. -/
def decodeTableWord (nbits w : Nat) : Option Instr :=
  if nbits ≤ 32 then
    let word : Word := BitVec.ofNat 32 (w % 2 ^ nbits)
    match decodeBytes [leByte word 0, leByte word 1, leByte word 2, leByte word 3] with
    | .ok (i, _) => some i
    | .error _ => none
  else none

/-! ### The encoder (R71 to R76, R84) -/

/-- R-Type (R71) -/
def encodeR (funct7 : BitVec 7) (rs2 rs1 : Reg) (funct3 : BitVec 3) (rd : Reg) (op : BitVec 7) : Word :=
  funct7 ++ regBits rs2 ++ regBits rs1 ++ funct3 ++ regBits rd ++ op
/-- I-Type (R72) -/
def encodeI (imm : BitVec 12) (rs1 : Reg) (funct3 : BitVec 3) (rd : Reg) (op : BitVec 7) : Word :=
  imm ++ regBits rs1 ++ funct3 ++ regBits rd ++ op
/-- The I-Type shifts: `funct7` and `uimm` in place of the immediate (R72, R83) -/
def encodeShift (funct7 : BitVec 7) (uimm : BitVec 5) (rs1 : Reg) (funct3 : BitVec 3) (rd : Reg)
    (op : BitVec 7) : Word :=
  funct7 ++ uimm ++ regBits rs1 ++ funct3 ++ regBits rd ++ op
/-- S-Type (R73) -/
def encodeS (imm : BitVec 12) (rs2 rs1 : Reg) (funct3 : BitVec 3) (op : BitVec 7) : Word :=
  imm.extractLsb' 5 7 ++ regBits rs2 ++ regBits rs1 ++ funct3 ++ imm.extractLsb' 0 5 ++ op
/-- B-Type (R74); bit 0 of the offset is not stored -/
def encodeB (off : BitVec 13) (rs2 rs1 : Reg) (funct3 : BitVec 3) (op : BitVec 7) : Word :=
  off.extractLsb' 12 1 ++ off.extractLsb' 5 6 ++ regBits rs2 ++ regBits rs1 ++ funct3 ++
    off.extractLsb' 1 4 ++ off.extractLsb' 11 1 ++ op
/-- U-Type (R75) -/
def encodeU (upimm : BitVec 20) (rd : Reg) (op : BitVec 7) : Word := upimm ++ regBits rd ++ op
/-- J-Type (R76); bit 0 of the offset is not stored -/
def encodeJ (off : BitVec 21) (rd : Reg) (op : BitVec 7) : Word :=
  off.extractLsb' 20 1 ++ off.extractLsb' 1 10 ++ off.extractLsb' 11 1 ++ off.extractLsb' 12 8 ++
    regBits rd ++ op

/-- The word of an instruction, from the opcode map R84 and the formats R71 to R76. -/
def encode : Instr → Word
  | .lb rd rs1 imm => encodeI imm rs1 0b000#3 rd 0b0000011#7
  | .lh rd rs1 imm => encodeI imm rs1 0b001#3 rd 0b0000011#7
  | .lw rd rs1 imm => encodeI imm rs1 0b010#3 rd 0b0000011#7
  | .lbu rd rs1 imm => encodeI imm rs1 0b100#3 rd 0b0000011#7
  | .lhu rd rs1 imm => encodeI imm rs1 0b101#3 rd 0b0000011#7
  | .addi rd rs1 imm => encodeI imm rs1 0b000#3 rd 0b0010011#7
  | .slli rd rs1 uimm => encodeShift 0b0000000#7 uimm rs1 0b001#3 rd 0b0010011#7
  | .slti rd rs1 imm => encodeI imm rs1 0b010#3 rd 0b0010011#7
  | .sltiu rd rs1 imm => encodeI imm rs1 0b011#3 rd 0b0010011#7
  | .xori rd rs1 imm => encodeI imm rs1 0b100#3 rd 0b0010011#7
  | .srli rd rs1 uimm => encodeShift 0b0000000#7 uimm rs1 0b101#3 rd 0b0010011#7
  | .srai rd rs1 uimm => encodeShift 0b0100000#7 uimm rs1 0b101#3 rd 0b0010011#7
  | .ori rd rs1 imm => encodeI imm rs1 0b110#3 rd 0b0010011#7
  | .andi rd rs1 imm => encodeI imm rs1 0b111#3 rd 0b0010011#7
  | .auipc rd upimm => encodeU upimm rd 0b0010111#7
  | .sb rs2 rs1 imm => encodeS imm rs2 rs1 0b000#3 0b0100011#7
  | .sh rs2 rs1 imm => encodeS imm rs2 rs1 0b001#3 0b0100011#7
  | .sw rs2 rs1 imm => encodeS imm rs2 rs1 0b010#3 0b0100011#7
  | .add rd rs1 rs2 => encodeR 0b0000000#7 rs2 rs1 0b000#3 rd 0b0110011#7
  | .sub rd rs1 rs2 => encodeR 0b0100000#7 rs2 rs1 0b000#3 rd 0b0110011#7
  | .sll rd rs1 rs2 => encodeR 0b0000000#7 rs2 rs1 0b001#3 rd 0b0110011#7
  | .slt rd rs1 rs2 => encodeR 0b0000000#7 rs2 rs1 0b010#3 rd 0b0110011#7
  | .sltu rd rs1 rs2 => encodeR 0b0000000#7 rs2 rs1 0b011#3 rd 0b0110011#7
  | .xor rd rs1 rs2 => encodeR 0b0000000#7 rs2 rs1 0b100#3 rd 0b0110011#7
  | .srl rd rs1 rs2 => encodeR 0b0000000#7 rs2 rs1 0b101#3 rd 0b0110011#7
  | .sra rd rs1 rs2 => encodeR 0b0100000#7 rs2 rs1 0b101#3 rd 0b0110011#7
  | .or rd rs1 rs2 => encodeR 0b0000000#7 rs2 rs1 0b110#3 rd 0b0110011#7
  | .and rd rs1 rs2 => encodeR 0b0000000#7 rs2 rs1 0b111#3 rd 0b0110011#7
  | .lui rd upimm => encodeU upimm rd 0b0110111#7
  | .beq rs1 rs2 off => encodeB off rs2 rs1 0b000#3 0b1100011#7
  | .bne rs1 rs2 off => encodeB off rs2 rs1 0b001#3 0b1100011#7
  | .blt rs1 rs2 off => encodeB off rs2 rs1 0b100#3 0b1100011#7
  | .bge rs1 rs2 off => encodeB off rs2 rs1 0b101#3 0b1100011#7
  | .bltu rs1 rs2 off => encodeB off rs2 rs1 0b110#3 0b1100011#7
  | .bgeu rs1 rs2 off => encodeB off rs2 rs1 0b111#3 0b1100011#7
  | .jalr rd rs1 imm => encodeI imm rs1 0b000#3 rd 0b1100111#7
  | .jal rd off => encodeJ off rd 0b1101111#7

/-! ### The opcode table (R85) -/

/-- One row of `spec/opcode_table.json`: the word `w` is that instruction exactly when `w & mask = match`
(R85); the field that holds `match` is named `fixed`. -/
structure OpcodeRow where
  mnemonic : String
  mask : Word
  fixed : Word
deriving DecidableEq, Repr

/-- Does the word fit the row? (R85) -/
def rowFits (row : OpcodeRow) (w : Word) : Bool := w &&& row.mask == row.fixed

/-- The 37 rows of `spec/opcode_table.json`, in its order. -/
def opcodeTable : List OpcodeRow :=
  [
    ⟨"lb", 0x0000707F#32, 0x00000003#32⟩,
    ⟨"lh", 0x0000707F#32, 0x00001003#32⟩,
    ⟨"lw", 0x0000707F#32, 0x00002003#32⟩,
    ⟨"lbu", 0x0000707F#32, 0x00004003#32⟩,
    ⟨"lhu", 0x0000707F#32, 0x00005003#32⟩,
    ⟨"addi", 0x0000707F#32, 0x00000013#32⟩,
    ⟨"slli", 0xFE00707F#32, 0x00001013#32⟩,
    ⟨"slti", 0x0000707F#32, 0x00002013#32⟩,
    ⟨"sltiu", 0x0000707F#32, 0x00003013#32⟩,
    ⟨"xori", 0x0000707F#32, 0x00004013#32⟩,
    ⟨"srli", 0xFE00707F#32, 0x00005013#32⟩,
    ⟨"srai", 0xFE00707F#32, 0x40005013#32⟩,
    ⟨"ori", 0x0000707F#32, 0x00006013#32⟩,
    ⟨"andi", 0x0000707F#32, 0x00007013#32⟩,
    ⟨"auipc", 0x0000007F#32, 0x00000017#32⟩,
    ⟨"sb", 0x0000707F#32, 0x00000023#32⟩,
    ⟨"sh", 0x0000707F#32, 0x00001023#32⟩,
    ⟨"sw", 0x0000707F#32, 0x00002023#32⟩,
    ⟨"add", 0xFE00707F#32, 0x00000033#32⟩,
    ⟨"sub", 0xFE00707F#32, 0x40000033#32⟩,
    ⟨"sll", 0xFE00707F#32, 0x00001033#32⟩,
    ⟨"slt", 0xFE00707F#32, 0x00002033#32⟩,
    ⟨"sltu", 0xFE00707F#32, 0x00003033#32⟩,
    ⟨"xor", 0xFE00707F#32, 0x00004033#32⟩,
    ⟨"srl", 0xFE00707F#32, 0x00005033#32⟩,
    ⟨"sra", 0xFE00707F#32, 0x40005033#32⟩,
    ⟨"or", 0xFE00707F#32, 0x00006033#32⟩,
    ⟨"and", 0xFE00707F#32, 0x00007033#32⟩,
    ⟨"lui", 0x0000007F#32, 0x00000037#32⟩,
    ⟨"beq", 0x0000707F#32, 0x00000063#32⟩,
    ⟨"bne", 0x0000707F#32, 0x00001063#32⟩,
    ⟨"blt", 0x0000707F#32, 0x00004063#32⟩,
    ⟨"bge", 0x0000707F#32, 0x00005063#32⟩,
    ⟨"bltu", 0x0000707F#32, 0x00006063#32⟩,
    ⟨"bgeu", 0x0000707F#32, 0x00007063#32⟩,
    ⟨"jalr", 0x0000707F#32, 0x00000067#32⟩,
    ⟨"jal", 0x0000007F#32, 0x0000006F#32⟩]

/-- The instruction's mnemonic, as the table spells it. -/
def Instr.mnemonic : Instr → String
  | .lb _ _ _ => "lb"
  | .lh _ _ _ => "lh"
  | .lw _ _ _ => "lw"
  | .lbu _ _ _ => "lbu"
  | .lhu _ _ _ => "lhu"
  | .addi _ _ _ => "addi"
  | .slli _ _ _ => "slli"
  | .slti _ _ _ => "slti"
  | .sltiu _ _ _ => "sltiu"
  | .xori _ _ _ => "xori"
  | .srli _ _ _ => "srli"
  | .srai _ _ _ => "srai"
  | .ori _ _ _ => "ori"
  | .andi _ _ _ => "andi"
  | .auipc _ _ => "auipc"
  | .sb _ _ _ => "sb"
  | .sh _ _ _ => "sh"
  | .sw _ _ _ => "sw"
  | .add _ _ _ => "add"
  | .sub _ _ _ => "sub"
  | .sll _ _ _ => "sll"
  | .slt _ _ _ => "slt"
  | .sltu _ _ _ => "sltu"
  | .xor _ _ _ => "xor"
  | .srl _ _ _ => "srl"
  | .sra _ _ _ => "sra"
  | .or _ _ _ => "or"
  | .and _ _ _ => "and"
  | .lui _ _ => "lui"
  | .beq _ _ _ => "beq"
  | .bne _ _ _ => "bne"
  | .blt _ _ _ => "blt"
  | .bge _ _ _ => "bge"
  | .bltu _ _ _ => "bltu"
  | .bgeu _ _ _ => "bgeu"
  | .jalr _ _ _ => "jalr"
  | .jal _ _ => "jal"

end Sys2Proof
end

