-- ==== Sys2Proof/Config.lean ====
section
/-! DEFINITION. What the spec leaves to the platform: the open parameters of `00_scope.md` R6 as plain data
(a run's `Params` stand in the state, log entry 12), and the free values, which have no body. -/

namespace Sys2Proof.Config

/-- One region of `MemMap` (R6, R50): the byte addresses `base` to `base + size - 1` are backed, with these
permissions; `device` marks bytes that are a device's and not plain memory (R49). -/
structure Region where
  base : Nat
  size : Nat
  readable : Bool
  writable : Bool
  executable : Bool
  device : Bool
deriving DecidableEq, Repr

/-- The three settings of `FETCH_SEES_STORES` (R6, R55, D22). -/
inductive FetchSeesStores where
  /-- the spec's `true`: one shared array, a fetch reads what stores wrote -/
  | sees
  /-- the spec's `false`: a separate instruction memory, a fetch reads `INIT_MEM` -/
  | ignores
  /-- the spec's third value: fetching a byte the program stored to is refused -/
  | refuse
deriving DecidableEq, Repr

/-- The open parameters a run is given (R6), but for `HALT`, which is a predicate and stands in
`Sys2Proof/Safety.lean`. -/
structure Params where
  /-- `RESET_PC`: the value of `pc` after reset, a multiple of 4 (D4) -/
  resetPc : Word
  /-- `INIT_REGS`: the values of `x1` to `x31` after reset, in that order (D3); always given here (log entry 1),
  and what a register reads as until it is written: the same bits on every read (R34, log entry 21) -/
  initRegs : Vector Word 31
  /-- `MemMap` (D6): the first region that holds an address decides it; an address in none is not backed -/
  memMap : List Region
  /-- `INIT_MEM` (D6): the bytes the host gives, in the canonical form of memory -/
  initMem : List Host.Cell
  /-- `JALR_CLEARS_BIT0` (D12) -/
  jalrClearsBit0 : Bool
  /-- `FETCH_SEES_STORES` (D22) -/
  fetchSeesStores : FetchSeesStores
deriving DecidableEq, Repr

/-- One store the program performed, as the host may observe it (R219): address, width and the value stored,
its bits above the width zero. -/
structure StoreEvent where
  addr : Word
  width : Width
  value : Word
deriving DecidableEq, Repr

/-- FREE VALUE (log entry 4; U17 "any value, fixed at reset"): what the byte at this address holds when the
host gave it no value and nothing has stored to it. -/
opaque initByte : Nat → Byte

/-- FREE VALUE (log entry 9; R49, U19 "a draw per load"): what a read of a device byte returns, given the
stores performed so far, the number of device bytes drawn before it, and its address. -/
opaque deviceByte : List StoreEvent → Nat → Nat → Byte

/-- The region the default map backs: all 2^32 bytes, plain, with every permission (log entry 3). -/
def wholeSpace : Region :=
  { base := 0, size := 4294967296, readable := true, writable := true, executable := true, device := false }

/-- The parameters of `Sys2Proof.Machine.State.reset`. `RESET_PC` and `JALR_CLEARS_BIT0` are the defaults R6
recommends (log entries 2 and 6); the others are DESIGN CHOICES (log entries 1, 3, 4 and 7). -/
def defaultParams : Params :=
  { resetPc := 0x00000000#32
    initRegs := Vector.replicate 31 0x00000000#32
    memMap := [wholeSpace]
    initMem := []
    jalrClearsBit0 := true
    fetchSeesStores := .sees }

end Sys2Proof.Config
end

