-- ==== Sys2Proof/Machine/State.lean ====
section
/-! DEFINITION. The machine's state as plain data (`10_state.md` R20 to R33), the reasons a step stops
(`60_exceptions.md` R181, R183), and the state after reset (R33, R210). -/

namespace Sys2Proof.Machine

open Sys2Proof.Config

/-- Memory (R31, R40): the bytes the host gave or a store wrote, as (address, byte) pairs in one canonical form,
addresses strictly rising and below 2^32. An unlisted address has no byte of its own: what it reads as is the
free value `Config.initByte` (`State.byteAt`, log entry 4). -/
abbrev Memory := List Host.Cell

/-- The whole state. `regs`, `pc` and `mem` are the hardware's ("31 writable general registers of 32 bits, one
program counter of 32 bits, and the bytes of memory. There is nothing else", `10_state.md`); `params` are the
run's parameters (R6), which no step changes; `stores` and `draws` are the model's own. -/
structure State where
  /-- `x1` to `x31`, register `i` at index `i - 1` (R20); `x0` is not stored (R21, R22) -/
  regs : Vector Word 31
  /-- the address of the instruction being executed (R24) -/
  pc : Word
  /-- the bytes of memory (R31) -/
  mem : Memory
  /-- the parameters of this run (R6, log entry 12) -/
  params : Params
  /-- the stores performed so far, oldest first (R219, R49, log entry 13) -/
  stores : List StoreEvent
  /-- how many device bytes have been drawn (R49, log entry 9) -/
  draws : Nat
deriving DecidableEq, Repr

/-- The faults of R181. Each is `Faulted(cause, pc, info)` of R180: `pc` is the address of the instruction that
raised, and the second field is R181's `info`. A fault is terminal and precise (R186): nothing is written, no
handler is entered, no further step exists. All are safe: nothing follows from a run that stopped. -/
inductive Fault where
  /-- Raised by a taken branch, `jal` or `jalr` whose target is not a multiple of 4 (R155, R170). SAFE. -/
  | instructionAddressMisaligned (pc target : Word)
  /-- Raised by the fetch of any step when a byte of the word at `pc` is not backed or not executable (R46). SAFE. -/
  | instructionAccessFault (pc addr : Word)
  /-- Raised by the decode of any step when the word is none of the 37 instructions (R88). SAFE. -/
  | illegalInstruction (pc word : Word)
  /-- Raised by `lh`, `lhu` at an odd address and `lw` at an address not a multiple of 4 (R43). SAFE. -/
  | loadAddressMisaligned (pc addr : Word)
  /-- Raised by any load when a byte of the access is not backed or not readable (R44). SAFE. -/
  | loadAccessFault (pc addr : Word)
  /-- Raised by `sh` at an odd address and `sw` at an address not a multiple of 4 (R43). SAFE. -/
  | storeAddressMisaligned (pc addr : Word)
  /-- Raised by any store when a byte of the access is not backed or not writable (R45). SAFE. -/
  | storeAccessFault (pc addr : Word)
deriving DecidableEq, Repr

/-- The refusals of the model (R183). -/
inductive Refusal where
  /-- Raised by no arm of this model: an instruction without a meaning would be rejected by name. SAFE. -/
  | notModelled (mnemonic : String)
  /-- Raised by the fetch when `FETCH_SEES_STORES` is `refuse` and the byte at this address has been stored to
  (R55, R183, log entry 8). SAFE: nothing is claimed of a program that fetches what it stored. -/
  | storeToCode (addr : Word)
deriving DecidableEq, Repr

/-- The state after reset for the parameters a host gives (R33, R210, R219): the registers hold `INIT_REGS`, `pc`
is `RESET_PC`, memory is `INIT_MEM`, and nothing has been stored or drawn. There is one kind of reset (R211). -/
def State.resetWith (p : Params) : State :=
  { regs := p.initRegs
    pc := p.resetPc
    mem := p.initMem
    params := p
    stores := []
    draws := 0 }

/-- The state after reset, for the parameters of log entries 1 to 7. -/
def State.reset : State := State.resetWith defaultParams

end Sys2Proof.Machine
end

