-- ==== Sys2Proof/Machine/Ops.lean ====
section
/-! DEFINITION. The named operations the instructions share: registers (R21, R22), `pc` (R25), memory and its map
(R40 to R50), raising a fault (R186), the fetch (R46, R55). -/

namespace Sys2Proof.Machine

open Sys2Proof.Config

/-- What an operation answers: a value, a fault or a refusal. -/
abbrev Result (α : Type) := Host.Outcome α Fault Refusal

/-- Go on with the value of an operation; a fault or a refusal ends the step (R186). -/
def andThen {α β : Type} (r : Result α) (k : α → Result β) : Result β :=
  match r with
  | .next a => k a
  | .fault f => .fault f
  | .refused q => .refused q

/-! ### Taking an exception -/

/-- `raise F(info)` (R9, R180, R186): the step ends with the fault `F`, which records the address of the raising
instruction and `info`. Nothing is written and control goes nowhere: the hardware has no vector, no saved
registers and no mode to change, so there is also no return from an exception (R188). -/
def raise {α : Type} (fault : Word → Word → Fault) (s : State) (info : Word) : Result α :=
  .fault (fault s.pc info)

/-! ### General registers -/

/-- Register number `r`'s place in `regs`; used only for `r ≠ 0`. -/
def regIndex (r : Reg) : Nat := r.val - 1

theorem regIndex_lt (r : Reg) : regIndex r < 31 := by unfold regIndex; omega

/-- `x[r]`: `x0` reads as zero, always (R21). A register nothing has written returns the same bits on every read until it
is written, those `INIT_REGS` gave it: the model's choice, which R34 asks to be listed (log entry 21). -/
def State.readReg (s : State) (r : Reg) : Word :=
  if r = 0 then 0x00000000#32 else s.regs[regIndex r]'(regIndex_lt r)

/-- `x[r] <- v`: a write to `x0` is discarded (R22). -/
def State.writeReg (s : State) (r : Reg) (v : Word) : State :=
  if r = 0 then s else { s with regs := s.regs.set (regIndex r) v (regIndex_lt r) }

/-! ### The program counter -/

/-- `pc <- t` (R9). -/
def State.setPc (s : State) (t : Word) : State := { s with pc := t }

/-- `pc <- pc + 4`, modulo 2^32: the end of an instruction that wrote no `pc` (R25, R27). -/
def State.advance (s : State) : State := s.setPc (s.pc + 4#32)

/-! ### Memory as data -/

/-- The byte listed at an address, if any. -/
def Memory.get? : Memory → Nat → Option Byte
  | [], _ => none
  | (c, x) :: rest, a => if a = c then some x else Memory.get? rest a

/-- List the byte `b` at address `a`, keeping the addresses strictly rising. -/
def Memory.set : Memory → Nat → Byte → Memory
  | [], a, b => [(a, b)]
  | (c, x) :: rest, a, b =>
    if a < c then (a, b) :: (c, x) :: rest
    else if a = c then (a, b) :: rest
    else (c, x) :: Memory.set rest a b

/-- Every address of the list is above `lo` and below 2^32, and they rise strictly. -/
def Memory.risesAbove (lo : Nat) : Memory → Bool
  | [] => true
  | (c, _) :: rest => decide (lo < c) && decide (c < 4294967296) && Memory.risesAbove c rest

/-- The canonical form of memory: addresses strictly rising, each a 32-bit address. A listed byte is never what
an unlisted address has, for that has no byte of its own (log entry 4). -/
def Memory.wf : Memory → Bool
  | [] => true
  | (c, _) :: rest => decide (c < 4294967296) && Memory.risesAbove c rest

/-! ### The memory map -/

/-- The region that decides the address: the first that holds it (R50, log entry 19). -/
def regionAt (map : List Region) (a : Nat) : Option Region :=
  map.find? fun r => decide (r.base ≤ a) && decide (a < r.base + r.size)

/-- Is the byte backed? (R50: an address in no region does not exist.) -/
def State.backed (s : State) (a : Nat) : Bool := (regionAt s.params.memMap a).isSome
/-- Is the byte backed and readable? (R44) -/
def State.readable (s : State) (a : Nat) : Bool := (regionAt s.params.memMap a).any (·.readable)
/-- Is the byte backed and writable? (R45) -/
def State.writable (s : State) (a : Nat) : Bool := (regionAt s.params.memMap a).any (·.writable)
/-- Is the byte backed and executable? (R46) -/
def State.executable (s : State) (a : Nat) : Bool := (regionAt s.params.memMap a).any (·.executable)
/-- Is the byte a device's? (R49) -/
def State.isDevice (s : State) (a : Nat) : Bool := (regionAt s.params.memMap a).any (·.device)

/-! ### Accesses -/

/-- How many bytes an access of this width moves (R47). -/
def widthBytes : Width → Nat
  | .byte => 1
  | .half => 2
  | .word => 4

/-- The low bits of a value that an access of this width moves, the others zero (R47). -/
def widthValue (w : Width) (v : Word) : Word :=
  match w with
  | .byte => (v.setWidth 8).setWidth 32
  | .half => (v.setWidth 16).setWidth 32
  | .word => v

/-- Natural alignment: the address is a multiple of the width (R43). -/
def aligned (a : Word) (w : Width) : Bool := a.toNat % widthBytes w == 0

/-- The address `i` bytes above `a`, modulo 2^32 (R51). -/
def byteAddr (a : Word) (i : Nat) : Nat := (a + BitVec.ofNat 32 i).toNat

/-- The byte addresses of an access, lowest first. -/
def accessBytes (a : Word) (w : Width) : List Nat := (List.range (widthBytes w)).map (byteAddr a)

/-- The byte a plain memory address holds: what was given or stored there, else the free value fixed at reset
(U17, log entry 4). -/
def State.byteAt (s : State) (a : Nat) : Byte :=
  match s.mem.get? a with
  | some b => b
  | none => Config.initByte a

/-- Draw a value for the device byte at `a` (R49: "a draw"; a free value, log entry 9). -/
def State.drawByte (s : State) (a : Nat) : Byte × State :=
  (Config.deviceByte s.stores s.draws a, { s with draws := s.draws + 1 })

/-- Read one byte: plain memory gives what it holds and changes nothing, a device byte gives a draw (R44, R49). -/
def State.loadByte (s : State) (a : Nat) : Byte × State :=
  if s.isDevice a then s.drawByte a else (s.byteAt a, s)

/-- Read the bytes at these addresses, in order. -/
def State.loadBytes (s : State) : List Nat → List Byte × State
  | [] => ([], s)
  | a :: rest =>
    let (b, s') := s.loadByte a
    let (bs, s'') := s'.loadBytes rest
    (b :: bs, s'')

/-- `MemRead(addr, n)` (R44): misalignment first (R185), then the map, then the bytes, little-endian (R41). The
`8n`-bit value stands in the low bits of the word, the others zero. -/
def memRead (s : State) (addr : Word) (w : Width) : Result (Word × State) :=
  if !aligned addr w then raise .loadAddressMisaligned s addr
  else if !(accessBytes addr w).all s.readable then raise .loadAccessFault s addr
  else
    let (bs, s') := s.loadBytes (accessBytes addr w)
    .next (leWord bs, s')

/-- Write one byte of a store: plain memory takes it, a device byte leaves memory as it was (R45, R49, log
entry 11). -/
def State.storeByte (s : State) (a : Nat) (b : Byte) : State :=
  if s.isDevice a then s else { s with mem := s.mem.set a b }

/-- `M[addr+i] <- v[8i+7 : 8i]` for `i` below `n` (R45). -/
def State.storeBytes (s : State) (addr v : Word) : Nat → State
  | 0 => s
  | n + 1 => (s.storeBytes addr v n).storeByte (byteAddr addr n) (leByte v n)

/-- Record a store as the host may observe it (R219; R49: "recorded"). -/
def State.recordStore (s : State) (addr : Word) (w : Width) (v : Word) : State :=
  { s with stores := s.stores ++ [{ addr := addr, width := w, value := widthValue w v }] }

/-- `MemWrite(addr, n, v)` (R45): misalignment first (R185), then the map, then all `n` bytes, little-endian. -/
def memWrite (s : State) (addr : Word) (w : Width) (v : Word) : Result State :=
  if !aligned addr w then raise .storeAddressMisaligned s addr
  else if !(accessBytes addr w).all s.writable then raise .storeAccessFault s addr
  else .next ((s.storeBytes addr v (widthBytes w)).recordStore addr w v)

/-! ### The fetch -/

/-- Did this store write the byte at `a`? -/
def storeCovers (a : Nat) (e : StoreEvent) : Bool := (accessBytes e.addr e.width).contains a

/-- Has the program stored to the byte at `a`? -/
def State.storedTo (s : State) (a : Nat) : Bool := s.stores.any (storeCovers a)

/-- The first byte of the word at `pc` that the program stored to, when such a fetch is refused (R55, R183). -/
def State.refusedCode (s : State) : Option Nat :=
  match s.params.fetchSeesStores with
  | .refuse => (accessBytes s.pc .word).find? s.storedTo
  | .sees | .ignores => none

/-- The memory a fetch reads (R55): the shared array, or `INIT_MEM` when a fetch does not see stores. -/
def State.codeMemory (s : State) : Memory :=
  match s.params.fetchSeesStores with
  | .ignores => s.params.initMem
  | .sees | .refuse => s.mem

/-- The byte of plain memory a fetch reads at `a`. -/
def State.codeByteAt (s : State) (a : Nat) : Byte :=
  match s.codeMemory.get? a with
  | some b => b
  | none => Config.initByte a

/-- Fetch one byte; a device byte gives a draw here too (R49, R52, log entry 10). -/
def State.fetchByte (s : State) (a : Nat) : Byte × State :=
  if s.isDevice a then s.drawByte a else (s.codeByteAt a, s)

/-- Fetch the bytes at these addresses, in order. -/
def State.fetchBytes (s : State) : List Nat → List Byte × State
  | [] => ([], s)
  | a :: rest =>
    let (b, s') := s.fetchByte a
    let (bs, s'') := s'.fetchBytes rest
    (b :: bs, s'')

/-- `Fetch(pc)` (R46): the four bytes at `pc`, little-endian. A byte not backed or not executable faults; under
`refuse` a byte the program stored to is refused (R55). -/
def fetch (s : State) : Result (Word × State) :=
  if !(accessBytes s.pc .word).all s.executable then raise .instructionAccessFault s s.pc
  else
    match s.refusedCode with
    | some a => .refused (.storeToCode (BitVec.ofNat 32 a))
    | none =>
      let (bs, s') := s.fetchBytes (accessBytes s.pc .word)
      .next (leWord bs, s')

/-- The instruction of a fetched word, or `IllegalInstruction(word)` (R26, R88). -/
def decodeOrRaise (w : Word) (s : State) : Result Instr :=
  match decode w with
  | .ok i => .next i
  | .error _ => raise .illegalInstruction s w

/-! ### Placing an instruction where the next fetch reads it -/

/-- A word's four bytes at these addresses of a memory. -/
def placeBytes (m : Memory) (addr w : Word) : Nat → Memory
  | 0 => m
  | n + 1 => (placeBytes m addr w n).set (byteAddr addr n) (leByte w n)

/-- A region of one plain executable byte, with the permissions for data the byte had. -/
def codeRegion (s : State) (a : Nat) : Region :=
  { base := a, size := 1, readable := s.readable a, writable := s.writable a, executable := true, device := false }

/-- Make the four bytes at `pc` plain and executable, if they are not. -/
def State.withCodeAtPc (s : State) : State :=
  if (accessBytes s.pc .word).all fun a => s.executable a && !s.isDevice a then s
  else { s with params := { s.params with
    memMap := (accessBytes s.pc .word).map (codeRegion s) ++ s.params.memMap } }

/-- Store a word where the fetch at `pc` reads it, as a host that loads a program does: in the shared array, or in
`INIT_MEM` when fetches do not see stores; under `refuse` the stores to these bytes are forgotten. -/
def State.placeWord (s : State) (w : Word) : State :=
  match s.params.fetchSeesStores with
  | .sees => { s with mem := placeBytes s.mem s.pc w 4 }
  | .ignores => { s with params := { s.params with initMem := placeBytes s.params.initMem s.pc w 4 } }
  | .refuse => { s with
      mem := placeBytes s.mem s.pc w 4
      stores := s.stores.filter fun e => !(accessBytes s.pc .word).any fun a => storeCovers a e }

end Sys2Proof.Machine
end

