-- ==== Sys2Proof/Machine/Flags.lean ====
section
/-! DEFINITION. The hardware has no flags and no condition codes (R28): comparisons write 0 or 1 to a register and
branches compare two registers directly. What stands here are those comparisons (R9, R10; `90_conflicts.md` C3). -/

namespace Sys2Proof.Machine

/-- `a <s b`: the signed readings compared (R9). -/
def ltSigned (a b : Word) : Bool := decide (a.toInt < b.toInt)

/-- `a <u b`: the unsigned readings compared (R9). -/
def ltUnsigned (a b : Word) : Bool := decide (a.toNat < b.toNat)

/-- A comparison as a value: 1 when true and 0 when false, 32 bits (R10). -/
def truthWord (c : Bool) : Word := if c then 0x00000001#32 else 0x00000000#32

end Sys2Proof.Machine
end

