-- ==== Sys2Proof/Machine/Operands.lean ====
section
/-! DEFINITION. The operand forms (R78 to R83): immediates, the one addressing mode, shift amounts, branch and jump
targets, the link value. -/

namespace Sys2Proof.Machine

/-- `sext_32(imm)` of a 12-bit I- or S-type immediate (R78, R79): sign-extended for every instruction. -/
def immWord (imm : BitVec 12) : Word := imm.signExtend 32

/-- `imm_U = upimm, 12'b0` (R81). -/
def upperWord (upimm : BitVec 20) : Word := upimm ++ 0#12

/-- `addr = x[rs1] + sext_32(imm)`, modulo 2^32: the only addressing mode (R51, R100, R130). -/
def effectiveAddress (s : State) (rs1 : Reg) (imm : BitVec 12) : Word := s.readReg rs1 + immWord imm

/-- The shift amount of `sll`, `srl`, `sra`: the low 5 bits of `x[rs2]` (R140 law (e)). -/
def shiftAmount (s : State) (rs2 : Reg) : Nat := ((s.readReg rs2).extractLsb' 0 5).toNat

/-- `BTA = pc + sext_32(off)`, modulo 2^32, `pc` the branch's own address (R80, R155). -/
def branchTarget (s : State) (off : BitVec 13) : Word := s.pc + off.signExtend 32

/-- `JTA = pc + sext_32(off)`, modulo 2^32 (R82, R172). -/
def jumpTarget (s : State) (off : BitVec 21) : Word := s.pc + off.signExtend 32

/-- `jalr`'s sum with bit 0 cleared or kept, as `JALR_CLEARS_BIT0` says (R171, log entry 6). -/
def jalrTarget (s : State) (rs1 : Reg) (imm : BitVec 12) : Word :=
  let sum := s.readReg rs1 + immWord imm
  if s.params.jalrClearsBit0 then sum.extractLsb' 1 31 ++ 0#1 else sum

/-- The link value `pc + 4`, modulo 2^32 (R170). -/
def linkValue (s : State) : Word := s.pc + 4#32

end Sys2Proof.Machine
end

