-- ==== Sys2Proof/Machine/Alu.lean ====
section
/-! DEFINITION. What the arithmetic instructions share: a result goes to `rd` and `pc` advances; no flag is touched and no
fault is raised (R110, R140, R182). -/

namespace Sys2Proof.Machine

/-- `x[rd] <- v; pc <- pc + 4` (R110, R125, R126, R140). -/
def putResult (s : State) (rd : Reg) (v : Word) : Result State := .next (s.writeReg rd v).advance

/-- `a << n`: zeros enter at bit 0 (R9). -/
def shiftLeft (a : Word) (n : Nat) : Word := a <<< n
/-- `a >>u n`: zeros enter at bit 31 (R9). -/
def shiftRightLogical (a : Word) (n : Nat) : Word := a >>> n
/-- `a >>s n`: copies of bit 31 enter at bit 31 (R9). -/
def shiftRightArith (a : Word) (n : Nat) : Word := a.sshiftRight n


end Sys2Proof.Machine
end

