-- ==== Sys2Proof/Machine/AluImm.lean ====
section
/-! DEFINITION. Immediate arithmetic, logic and shifts, `op = 0010011` (`41_alu_immediate.md` R110 to R120). -/

namespace Sys2Proof.Machine

/-- `addi rd, rs1, imm`: add immediate, modulo 2^32 (R111). -/
def execAddi (rd rs1 : Reg) (imm : BitVec 12) (s : State) : Host.Outcome State Fault Refusal :=
  putResult s rd (s.readReg rs1 + immWord imm)

/-- `slli rd, rs1, uimm`: shift left logical immediate (R112). -/
def execSlli (rd rs1 : Reg) (uimm : BitVec 5) (s : State) : Host.Outcome State Fault Refusal :=
  putResult s rd (shiftLeft (s.readReg rs1) uimm.toNat)

/-- `slti rd, rs1, imm`: set less than immediate, signed (R113). -/
def execSlti (rd rs1 : Reg) (imm : BitVec 12) (s : State) : Host.Outcome State Fault Refusal :=
  putResult s rd (truthWord (ltSigned (s.readReg rs1) (immWord imm)))

/-- `sltiu rd, rs1, imm`: set less than immediate; the immediate is sign-extended, the comparison unsigned (R114). -/
def execSltiu (rd rs1 : Reg) (imm : BitVec 12) (s : State) : Host.Outcome State Fault Refusal :=
  putResult s rd (truthWord (ltUnsigned (s.readReg rs1) (immWord imm)))

/-- `xori rd, rs1, imm`: exclusive-or immediate (R115). -/
def execXori (rd rs1 : Reg) (imm : BitVec 12) (s : State) : Host.Outcome State Fault Refusal :=
  putResult s rd (s.readReg rs1 ^^^ immWord imm)

/-- `srli rd, rs1, uimm`: shift right logical immediate (R116). -/
def execSrli (rd rs1 : Reg) (uimm : BitVec 5) (s : State) : Host.Outcome State Fault Refusal :=
  putResult s rd (shiftRightLogical (s.readReg rs1) uimm.toNat)

/-- `srai rd, rs1, uimm`: shift right arithmetic immediate (R117). -/
def execSrai (rd rs1 : Reg) (uimm : BitVec 5) (s : State) : Host.Outcome State Fault Refusal :=
  putResult s rd (shiftRightArith (s.readReg rs1) uimm.toNat)

/-- `ori rd, rs1, imm`: or immediate (R118). -/
def execOri (rd rs1 : Reg) (imm : BitVec 12) (s : State) : Host.Outcome State Fault Refusal :=
  putResult s rd (s.readReg rs1 ||| immWord imm)

/-- `andi rd, rs1, imm`: and immediate (R119). -/
def execAndi (rd rs1 : Reg) (imm : BitVec 12) (s : State) : Host.Outcome State Fault Refusal :=
  putResult s rd (s.readReg rs1 &&& immWord imm)


end Sys2Proof.Machine
end

