-- ==== Sys2Proof/Machine/AluReg.lean ====
section
/-! DEFINITION. Register-register arithmetic, logic and shifts, `op = 0110011` (`44_alu_register.md` R140 to R151). -/

namespace Sys2Proof.Machine

/-- `add rd, rs1, rs2`: modulo 2^32 (R141). -/
def execAdd (rd rs1 rs2 : Reg) (s : State) : Host.Outcome State Fault Refusal :=
  putResult s rd (s.readReg rs1 + s.readReg rs2)

/-- `sub rd, rs1, rs2`: modulo 2^32 (R142). -/
def execSub (rd rs1 rs2 : Reg) (s : State) : Host.Outcome State Fault Refusal :=
  putResult s rd (s.readReg rs1 - s.readReg rs2)

/-- `sll rd, rs1, rs2`: shift left logical (R143). -/
def execSll (rd rs1 rs2 : Reg) (s : State) : Host.Outcome State Fault Refusal :=
  putResult s rd (shiftLeft (s.readReg rs1) (shiftAmount s rs2))

/-- `slt rd, rs1, rs2`: set less than, signed (R144). -/
def execSlt (rd rs1 rs2 : Reg) (s : State) : Host.Outcome State Fault Refusal :=
  putResult s rd (truthWord (ltSigned (s.readReg rs1) (s.readReg rs2)))

/-- `sltu rd, rs1, rs2`: set less than, unsigned (R145). -/
def execSltu (rd rs1 rs2 : Reg) (s : State) : Host.Outcome State Fault Refusal :=
  putResult s rd (truthWord (ltUnsigned (s.readReg rs1) (s.readReg rs2)))

/-- `xor rd, rs1, rs2`: bitwise exclusive or (R146). -/
def execXor (rd rs1 rs2 : Reg) (s : State) : Host.Outcome State Fault Refusal :=
  putResult s rd (s.readReg rs1 ^^^ s.readReg rs2)

/-- `srl rd, rs1, rs2`: shift right logical (R147). -/
def execSrl (rd rs1 rs2 : Reg) (s : State) : Host.Outcome State Fault Refusal :=
  putResult s rd (shiftRightLogical (s.readReg rs1) (shiftAmount s rs2))

/-- `sra rd, rs1, rs2`: shift right arithmetic (R148). -/
def execSra (rd rs1 rs2 : Reg) (s : State) : Host.Outcome State Fault Refusal :=
  putResult s rd (shiftRightArith (s.readReg rs1) (shiftAmount s rs2))

/-- `or rd, rs1, rs2`: bitwise or (R149). -/
def execOr (rd rs1 rs2 : Reg) (s : State) : Host.Outcome State Fault Refusal :=
  putResult s rd (s.readReg rs1 ||| s.readReg rs2)

/-- `and rd, rs1, rs2`: bitwise and (R150). -/
def execAnd (rd rs1 rs2 : Reg) (s : State) : Host.Outcome State Fault Refusal :=
  putResult s rd (s.readReg rs1 &&& s.readReg rs2)


end Sys2Proof.Machine
end

