-- ==== Sys2Proof/Machine/Transfer.lean ====
section
/-! DEFINITION. What branches and jumps share: the check of the target (R27, R155, R170). -/

namespace Sys2Proof.Machine

/-- `pc <- target`, or `InstructionAddressMisaligned(target)` when it is not a multiple of 4, raised by the
transfer itself with nothing written (R155, R170, R186). `onward` is the state before `pc` is written: the one
with the link for a jump. -/
def transferTo (s : State) (target : Word) (onward : State) : Result State :=
  if aligned target .word then .next (onward.setPc target)
  else raise .instructionAddressMisaligned s target


end Sys2Proof.Machine
end

