-- ==== Sys2Proof/Machine/Branches.lean ====
section
/-! DEFINITION. The branches, `op = 1100011` (`45_branches.md` R155 to R162). -/

namespace Sys2Proof.Machine

/-- The common shape of a branch (R155): not taken, it advances and never faults; taken, it goes to its target. -/
def branchWhen (s : State) (cond : Bool) (off : BitVec 13) : Result State :=
  if cond then transferTo s (branchTarget s off) s else .next s.advance

/-- `beq rs1, rs2, label`: branch if equal (R156). -/
def execBeq (rs1 rs2 : Reg) (off : BitVec 13) (s : State) : Host.Outcome State Fault Refusal :=
  branchWhen s (s.readReg rs1 == s.readReg rs2) off

/-- `bne rs1, rs2, label`: branch if not equal (R157). -/
def execBne (rs1 rs2 : Reg) (off : BitVec 13) (s : State) : Host.Outcome State Fault Refusal :=
  branchWhen s (s.readReg rs1 != s.readReg rs2) off

/-- `blt rs1, rs2, label`: branch if less than, signed (R158). -/
def execBlt (rs1 rs2 : Reg) (off : BitVec 13) (s : State) : Host.Outcome State Fault Refusal :=
  branchWhen s (ltSigned (s.readReg rs1) (s.readReg rs2)) off

/-- `bge rs1, rs2, label`: branch if greater than or equal, signed (R159). -/
def execBge (rs1 rs2 : Reg) (off : BitVec 13) (s : State) : Host.Outcome State Fault Refusal :=
  branchWhen s (!ltSigned (s.readReg rs1) (s.readReg rs2)) off

/-- `bltu rs1, rs2, label`: branch if less than, unsigned (R160). -/
def execBltu (rs1 rs2 : Reg) (off : BitVec 13) (s : State) : Host.Outcome State Fault Refusal :=
  branchWhen s (ltUnsigned (s.readReg rs1) (s.readReg rs2)) off

/-- `bgeu rs1, rs2, label`: branch if greater than or equal, unsigned (R161). -/
def execBgeu (rs1 rs2 : Reg) (off : BitVec 13) (s : State) : Host.Outcome State Fault Refusal :=
  branchWhen s (!ltUnsigned (s.readReg rs1) (s.readReg rs2)) off


end Sys2Proof.Machine
end

