-- ==== Sys2Proof/Machine/Jumps.lean ====
section
/-! DEFINITION. The jumps, `op = 1100111` and `op = 1101111` (`46_jumps.md` R170 to R172). -/

namespace Sys2Proof.Machine

/-- The common shape of a jump (R170): link to `rd` and go to the target, or fault with neither written. The
target is computed from the state before `rd` is written (D13). -/
def jumpAndLink (s : State) (rd : Reg) (target : Word) : Result State :=
  transferTo s target (s.writeReg rd (linkValue s))

/-- `jalr rd, rs1, imm`: jump and link register (R171). -/
def execJalr (rd rs1 : Reg) (imm : BitVec 12) (s : State) : Host.Outcome State Fault Refusal :=
  jumpAndLink s rd (jalrTarget s rs1 imm)

/-- `jal rd, label`: jump and link (R172). -/
def execJal (rd : Reg) (off : BitVec 21) (s : State) : Host.Outcome State Fault Refusal :=
  jumpAndLink s rd (jumpTarget s off)


end Sys2Proof.Machine
end

