-- ==== Sys2Proof/Machine/Loads.lean ====
section
/-! DEFINITION. The loads, `op = 0000011` (`40_loads.md` R100 to R106). -/

namespace Sys2Proof.Machine

/-- The common shape of a load (R100): address, `MemRead`, which may raise, widen, write `rd`, advance. A load to
`x0` still makes its access (R90). -/
def loadInto (s : State) (w : Width) (widen : Word → Word) (rd rs1 : Reg) (imm : BitVec 12) : Result State :=
  andThen (memRead s (effectiveAddress s rs1 imm) w) fun (v, s') => .next (s'.writeReg rd (widen v)).advance

/-- `sext_32` of a byte. -/
def signExtendByte (v : Word) : Word := (v.setWidth 8).signExtend 32
/-- `sext_32` of a half. -/
def signExtendHalf (v : Word) : Word := (v.setWidth 16).signExtend 32
/-- `zext_32` of a byte. -/
def zeroExtendByte (v : Word) : Word := (v.setWidth 8).setWidth 32
/-- `zext_32` of a half. -/
def zeroExtendHalf (v : Word) : Word := (v.setWidth 16).setWidth 32
/-- A whole word needs no extension. -/
def wholeWord (v : Word) : Word := v

/-- `lb rd, imm(rs1)`: load byte (R101). -/
def execLb (rd rs1 : Reg) (imm : BitVec 12) (s : State) : Host.Outcome State Fault Refusal :=
  loadInto s .byte signExtendByte rd rs1 imm

/-- `lh rd, imm(rs1)`: load half (R102). -/
def execLh (rd rs1 : Reg) (imm : BitVec 12) (s : State) : Host.Outcome State Fault Refusal :=
  loadInto s .half signExtendHalf rd rs1 imm

/-- `lw rd, imm(rs1)`: load word (R103). -/
def execLw (rd rs1 : Reg) (imm : BitVec 12) (s : State) : Host.Outcome State Fault Refusal :=
  loadInto s .word wholeWord rd rs1 imm

/-- `lbu rd, imm(rs1)`: load byte unsigned (R104). -/
def execLbu (rd rs1 : Reg) (imm : BitVec 12) (s : State) : Host.Outcome State Fault Refusal :=
  loadInto s .byte zeroExtendByte rd rs1 imm

/-- `lhu rd, imm(rs1)`: load half unsigned (R105). -/
def execLhu (rd rs1 : Reg) (imm : BitVec 12) (s : State) : Host.Outcome State Fault Refusal :=
  loadInto s .half zeroExtendHalf rd rs1 imm


end Sys2Proof.Machine
end

