-- ==== Sys2Proof/Machine/Stores.lean ====
section
/-! DEFINITION. The stores, `op = 0100011` (`43_stores.md` R130 to R134). -/

namespace Sys2Proof.Machine

/-- The common shape of a store (R130): address from `rs1`, data from `rs2`, `MemWrite`, which may raise, advance. -/
def storeFrom (s : State) (w : Width) (rs2 rs1 : Reg) (imm : BitVec 12) : Result State :=
  andThen (memWrite s (effectiveAddress s rs1 imm) w (s.readReg rs2)) fun s' => .next s'.advance

/-- `sb rs2, imm(rs1)`: store byte (R131). -/
def execSb (rs2 rs1 : Reg) (imm : BitVec 12) (s : State) : Host.Outcome State Fault Refusal :=
  storeFrom s .byte rs2 rs1 imm

/-- `sh rs2, imm(rs1)`: store half (R132). -/
def execSh (rs2 rs1 : Reg) (imm : BitVec 12) (s : State) : Host.Outcome State Fault Refusal :=
  storeFrom s .half rs2 rs1 imm

/-- `sw rs2, imm(rs1)`: store word (R133). -/
def execSw (rs2 rs1 : Reg) (imm : BitVec 12) (s : State) : Host.Outcome State Fault Refusal :=
  storeFrom s .word rs2 rs1 imm


end Sys2Proof.Machine
end

