-- ==== Sys2Proof/Machine/Upper.lean ====
section
/-! DEFINITION. The upper-immediate instructions (`42_upper_immediate.md` R125, R126). -/

namespace Sys2Proof.Machine

/-- `auipc rd, upimm`: add upper immediate to `pc`, the address of this instruction (R125). -/
def execAuipc (rd : Reg) (upimm : BitVec 20) (s : State) : Host.Outcome State Fault Refusal :=
  putResult s rd (s.pc + upperWord upimm)

/-- `lui rd, upimm`: load upper immediate (R126). -/
def execLui (rd : Reg) (upimm : BitVec 20) (s : State) : Host.Outcome State Fault Refusal :=
  putResult s rd (upperWord upimm)


end Sys2Proof.Machine
end

