-- ==== Sys2Proof/Machine/Step.lean ====
section
/-! DEFINITION. One step of the machine (R26), and the state whose next step runs a given instruction. -/

namespace Sys2Proof.Machine

/-- The step (R26): fetch the word at `pc`, decode it, execute its rule. Each stage may end the step with a fault,
the first that does deciding (R185); each rule itself moves `pc` (R25). -/
def step (s : State) : Host.Outcome State Fault Refusal :=
  andThen (fetch s) fun (w, s') => andThen (decodeOrRaise w s') fun i => exec i s'

/-- The state with the instruction `w` of `nbits` bits where the next fetch reads it: at `pc`, little-endian
(R46), in plain executable bytes. The bits above `nbits` are 0. -/
def State.withFetchWord (s : State) (nbits w : Nat) : State :=
  s.withCodeAtPc.placeWord (BitVec.ofNat 32 (w % 2 ^ nbits))

end Sys2Proof.Machine
end

