-- ==== Sys2Proof/Safety.lean ====
section
/-! DEFINITION. The terms claims are stated in: frames, the invariant of every run, which instruction may raise what
(R182), where `pc` goes (R25), runs and their end (R180, R218). -/

namespace Sys2Proof.Machine

open Sys2Proof.Config

/-! ### Frames -/

/-- Nothing but registers and `pc` differs: every byte of memory, the parameters, the stores and the draws are as
they were. -/
structure Untouched (s t : State) : Prop where
  bytes : ∀ a, t.byteAt a = s.byteAt a
  params : t.params = s.params
  stores : t.stores = s.stores
  draws : t.draws = s.draws

/-- Every general register but `rd` reads as before. -/
def RegsKeptBut (rd : Reg) (s t : State) : Prop := ∀ r, r ≠ rd → t.readReg r = s.readReg r

/-- Every general register reads as before. -/
def RegsKept (s t : State) : Prop := ∀ r, t.readReg r = s.readReg r

/-- `pc` moved past the instruction, modulo 2^32 (R25, R27). -/
def PcAdvanced (s t : State) : Prop := t.pc.toNat = (s.pc.toNat + 4) % 4294967296

/-- `rd` holds `v`, or zero if it is `x0` (R21, R22), and every other register is as before. -/
structure WritesReg (s t : State) (rd : Reg) (v : Word) : Prop where
  result : t.readReg rd = if rd = 0 then 0#32 else v
  others : RegsKeptBut rd s t

/-- The instruction completes in `s`: it writes to `rd` a value that `P` describes, advances `pc`, and touches
nothing else. -/
def Yields (i : Instr) (s : State) (rd : Reg) (P : Word → Prop) : Prop :=
  ∃ t v, exec i s = .next t ∧ P v ∧ WritesReg s t rd v ∧ PcAdvanced s t ∧ Untouched s t

/-- The `n` bytes from `a` up are backed, readable, plain memory (R44, R49). -/
def PlainReadable (s : State) (a : Word) (n : Nat) : Prop :=
  ∀ i, i < n → s.readable (a.toNat + i) = true ∧ s.isDevice (a.toNat + i) = false

/-- The `n` bytes from `a` up are backed, executable, plain memory (R46). -/
def PlainExecutable (s : State) (a : Word) (n : Nat) : Prop :=
  ∀ i, i < n → s.executable (a.toNat + i) = true ∧ s.isDevice (a.toNat + i) = false

/-! ### Kinds of instructions -/

/-- What an instruction is, by its file of spec/. -/
inductive Kind where
  /-- `40_loads.md` -/
  | load (w : Width)
  /-- `43_stores.md` -/
  | store (w : Width)
  /-- `41_alu_immediate.md`, `42_upper_immediate.md`, `44_alu_register.md` -/
  | arithmetic
  /-- `45_branches.md` -/
  | branch
  /-- `46_jumps.md` -/
  | jump
deriving DecidableEq, Repr

def kindOf : Instr → Kind
  | .lb _ _ _ | .lbu _ _ _ => .load .byte
  | .lh _ _ _ | .lhu _ _ _ => .load .half
  | .lw _ _ _ => .load .word
  | .sb _ _ _ => .store .byte
  | .sh _ _ _ => .store .half
  | .sw _ _ _ => .store .word
  | .addi _ _ _ | .slli _ _ _ | .slti _ _ _ | .sltiu _ _ _ | .xori _ _ _
  | .srli _ _ _ | .srai _ _ _ | .ori _ _ _ | .andi _ _ _ | .auipc _ _ | .lui _ _
  | .add _ _ _ | .sub _ _ _ | .sll _ _ _ | .slt _ _ _ | .sltu _ _ _ | .xor _ _ _
  | .srl _ _ _ | .sra _ _ _ | .or _ _ _ | .and _ _ _ => .arithmetic
  | .beq _ _ _ | .bne _ _ _ | .blt _ _ _ | .bge _ _ _ | .bltu _ _ _ | .bgeu _ _ _ => .branch
  | .jalr _ _ _ | .jal _ _ => .jump

/-- The register an instruction writes, if it writes one: R-, I-, U- and J-type words have an `rd`, S- and B-type
words have none (R20). -/
def destOf : Instr → Option Reg
  | .lb rd _ _ | .lh rd _ _ | .lw rd _ _ | .lbu rd _ _ | .lhu rd _ _
  | .addi rd _ _ | .slli rd _ _ | .slti rd _ _ | .sltiu rd _ _ | .xori rd _ _
  | .srli rd _ _ | .srai rd _ _ | .ori rd _ _ | .andi rd _ _ | .auipc rd _ | .lui rd _
  | .add rd _ _ | .sub rd _ _ | .sll rd _ _ | .slt rd _ _ | .sltu rd _ _ | .xor rd _ _
  | .srl rd _ _ | .sra rd _ _ | .or rd _ _ | .and rd _ _ | .jalr rd _ _ | .jal rd _ => some rd
  | .sb _ _ _ | .sh _ _ _ | .sw _ _ _
  | .beq _ _ _ | .bne _ _ _ | .blt _ _ _ | .bge _ _ _ | .bltu _ _ _ | .bgeu _ _ _ => none

/-- The same instruction with `x0` as its destination. -/
def toX0 : Instr → Instr
  | .lb _ a b => .lb 0 a b
  | .lh _ a b => .lh 0 a b
  | .lw _ a b => .lw 0 a b
  | .lbu _ a b => .lbu 0 a b
  | .lhu _ a b => .lhu 0 a b
  | .addi _ a b => .addi 0 a b
  | .slli _ a b => .slli 0 a b
  | .slti _ a b => .slti 0 a b
  | .sltiu _ a b => .sltiu 0 a b
  | .xori _ a b => .xori 0 a b
  | .srli _ a b => .srli 0 a b
  | .srai _ a b => .srai 0 a b
  | .ori _ a b => .ori 0 a b
  | .andi _ a b => .andi 0 a b
  | .auipc _ a => .auipc 0 a
  | .lui _ a => .lui 0 a
  | .add _ a b => .add 0 a b
  | .sub _ a b => .sub 0 a b
  | .sll _ a b => .sll 0 a b
  | .slt _ a b => .slt 0 a b
  | .sltu _ a b => .sltu 0 a b
  | .xor _ a b => .xor 0 a b
  | .srl _ a b => .srl 0 a b
  | .sra _ a b => .sra 0 a b
  | .or _ a b => .or 0 a b
  | .and _ a b => .and 0 a b
  | .jalr _ a b => .jalr 0 a b
  | .jal _ a => .jal 0 a
  | .sb a b c => .sb a b c
  | .sh a b c => .sh a b c
  | .sw a b c => .sw a b c
  | .beq a b c => .beq a b c
  | .bne a b c => .bne a b c
  | .blt a b c => .blt a b c
  | .bge a b c => .bge a b c
  | .bltu a b c => .bltu a b c
  | .bgeu a b c => .bgeu a b c

/-! ### Faults -/

/-- The address of the instruction that raised: the `pc` of `Faulted(cause, pc, info)` (R180, R181). -/
def Fault.pc : Fault → Word
  | .instructionAddressMisaligned pc _ | .instructionAccessFault pc _ | .illegalInstruction pc _
  | .loadAddressMisaligned pc _ | .loadAccessFault pc _
  | .storeAddressMisaligned pc _ | .storeAccessFault pc _ => pc

/-- What the fault records beside it: R181's `info`. -/
def Fault.info : Fault → Word
  | .instructionAddressMisaligned _ x | .instructionAccessFault _ x | .illegalInstruction _ x
  | .loadAddressMisaligned _ x | .loadAccessFault _ x
  | .storeAddressMisaligned _ x | .storeAccessFault _ x => x

/-- R181's code column, a label only: nothing stores it (D26). -/
def Fault.code : Fault → Nat
  | .instructionAddressMisaligned _ _ => 0
  | .instructionAccessFault _ _ => 1
  | .illegalInstruction _ _ => 2
  | .loadAddressMisaligned _ _ => 4
  | .loadAccessFault _ _ => 5
  | .storeAddressMisaligned _ _ => 6
  | .storeAccessFault _ _ => 7

/-- The faults the rule of an instruction of this kind can raise, beyond the fetch's and the decoder's (R182). -/
def Kind.mayRaise : Kind → Fault → Prop
  | .load .byte, .loadAccessFault _ _ => True
  | .load .half, .loadAccessFault _ _ | .load .half, .loadAddressMisaligned _ _ => True
  | .load .word, .loadAccessFault _ _ | .load .word, .loadAddressMisaligned _ _ => True
  | .store .byte, .storeAccessFault _ _ => True
  | .store .half, .storeAccessFault _ _ | .store .half, .storeAddressMisaligned _ _ => True
  | .store .word, .storeAccessFault _ _ | .store .word, .storeAddressMisaligned _ _ => True
  | .branch, .instructionAddressMisaligned _ _ => True
  | .jump, .instructionAddressMisaligned _ _ => True
  | _, _ => False

/-! ### Where `pc` goes (R25) -/

/-- A branch's two outcomes: the target `pc + off` when its condition holds, else the next instruction. -/
def branchPc (s : State) (cond : Prop) [Decidable cond] (off : BitVec 13) : Word :=
  if cond then BitVec.ofInt 32 (s.pc.toNat + off.toInt) else BitVec.ofNat 32 (s.pc.toNat + 4)

/-- The address of the instruction that follows `i` in `s`, in integer arithmetic (R25, R155 to R161, R171, R172). -/
def nextPc (i : Instr) (s : State) : Word :=
  match i with
  | .beq rs1 rs2 off => branchPc s (s.readReg rs1 = s.readReg rs2) off
  | .bne rs1 rs2 off => branchPc s (s.readReg rs1 ≠ s.readReg rs2) off
  | .blt rs1 rs2 off => branchPc s ((s.readReg rs1).toInt < (s.readReg rs2).toInt) off
  | .bge rs1 rs2 off => branchPc s ((s.readReg rs1).toInt ≥ (s.readReg rs2).toInt) off
  | .bltu rs1 rs2 off => branchPc s ((s.readReg rs1).toNat < (s.readReg rs2).toNat) off
  | .bgeu rs1 rs2 off => branchPc s ((s.readReg rs1).toNat ≥ (s.readReg rs2).toNat) off
  | .jal _ off => BitVec.ofInt 32 (s.pc.toNat + off.toInt)
  | .jalr _ rs1 imm =>
    let sum := (BitVec.ofInt 32 ((s.readReg rs1).toNat + imm.toInt)).toNat
    BitVec.ofNat 32 (if s.params.jalrClearsBit0 then sum - sum % 2 else sum)
  | .lb _ _ _ | .lh _ _ _ | .lw _ _ _ | .lbu _ _ _ | .lhu _ _ _
  | .addi _ _ _ | .slli _ _ _ | .slti _ _ _ | .sltiu _ _ _ | .xori _ _ _
  | .srli _ _ _ | .srai _ _ _ | .ori _ _ _ | .andi _ _ _ | .auipc _ _ | .lui _ _
  | .sb _ _ _ | .sh _ _ _ | .sw _ _ _
  | .add _ _ _ | .sub _ _ _ | .sll _ _ _ | .slt _ _ _ | .sltu _ _ _ | .xor _ _ _
  | .srl _ _ _ | .sra _ _ _ | .or _ _ _ | .and _ _ _ => BitVec.ofNat 32 (s.pc.toNat + 4)

/-- What a branch does in `s` when its condition is `cond` (R155): not taken, it advances; taken, it goes to
`pc + off` if that is a multiple of 4 and faults if it is not. No register and no byte changes. -/
def BranchBehaves (i : Instr) (s : State) (cond : Prop) (off : BitVec 13) : Prop :=
  let target : Word := BitVec.ofInt 32 (s.pc.toNat + off.toInt)
  (¬cond → ∃ t, exec i s = .next t ∧ PcAdvanced s t ∧ RegsKept s t ∧ Untouched s t) ∧
  (cond → target.toNat % 4 = 0 → ∃ t, exec i s = .next t ∧ t.pc = target ∧ RegsKept s t ∧ Untouched s t) ∧
  (cond → target.toNat % 4 ≠ 0 → exec i s = .fault (.instructionAddressMisaligned s.pc target))

/-- What a jump does in `s` (R170): to a target that is a multiple of 4, it links `pc + 4` in `rd` and goes there;
to any other, it faults with nothing written. -/
def JumpBehaves (i : Instr) (s : State) (rd : Reg) (target : Word) : Prop :=
  (target.toNat % 4 = 0 → ∃ t link, exec i s = .next t ∧ t.pc = target ∧
    link.toNat = (s.pc.toNat + 4) % 4294967296 ∧ WritesReg s t rd link ∧ Untouched s t) ∧
  (target.toNat % 4 ≠ 0 → exec i s = .fault (.instructionAddressMisaligned s.pc target))

/-! ### Stores -/

/-- What a store of the low `n` bytes of `v` to `a` does in `s` (R45, R130): byte `a + k` of plain memory holds
bits `8k+7 : 8k` of `v`, every other byte and every register is as before, the store is recorded, `pc` advances. -/
def StoreWrites (i : Instr) (s : State) (a : Word) (w : Width) (n : Nat) (v : Word) : Prop :=
  ∃ t, exec i s = .next t ∧ PcAdvanced s t ∧ RegsKept s t ∧ t.params = s.params ∧ t.draws = s.draws ∧
    t.stores = s.stores ++ [⟨a, w, BitVec.ofNat 32 (v.toNat % 256 ^ n)⟩] ∧
    ∀ x, t.byteAt x =
      if a.toNat ≤ x ∧ x < a.toNat + n ∧ s.isDevice x = false
      then BitVec.ofNat 8 (v.toNat / 256 ^ (x - a.toNat)) else s.byteAt x

/-- The last store that wrote the byte at `a`, if any did. -/
def lastStore (stores : List StoreEvent) (a : Nat) : Option StoreEvent :=
  stores.reverse.find? (storeCovers a)

/-- Every plain byte holds what the most recent store to it wrote, or what `INIT_MEM` gave it (R53 (b)). -/
def HoldsLatestStores (s : State) : Prop :=
  ∀ a, s.isDevice a = false →
    s.mem.get? a =
      match lastStore s.stores a with
      | some e => some (BitVec.ofNat 8 (e.value.toNat / 256 ^ (a - e.addr.toNat)))
      | none => Memory.get? s.params.initMem a

/-! ### The invariant of every run -/

/-- The parameters are ones a host may give (R6, R33, D6): `RESET_PC` is a multiple of 4 and `INIT_MEM` is in
canonical form and gives bytes of backed addresses only. -/
structure ParamsOk (p : Params) : Prop where
  resetPc : p.resetPc.toNat % 4 = 0
  initMemWf : Memory.wf p.initMem = true
  initMemBacked : ∀ a, (Memory.get? p.initMem a).isSome = true → (regionAt p.memMap a).isSome = true

/-- What holds in every state of a run: `pc` is a multiple of 4 (R27); memory is in canonical form and has bytes
at backed addresses only (R31, R33); and every recorded store was aligned (R43), wrote only writable bytes (R45)
and has a value of its width (R47). -/
structure Inv (s : State) : Prop where
  pcAligned : s.pc.toNat % 4 = 0
  memWf : s.mem.wf = true
  memBacked : ∀ a, (s.mem.get? a).isSome = true → s.backed a = true
  storesAligned : ∀ e ∈ s.stores, e.addr.toNat % widthBytes e.width = 0
  storesWritable : ∀ e ∈ s.stores, ∀ k, k < widthBytes e.width → s.writable (e.addr.toNat + k) = true
  storesNarrow : ∀ e ∈ s.stores, e.value.toNat < 256 ^ widthBytes e.width

/-! ### Runs -/

/-- `t` is the state some number of steps after `s`. -/
def Reaches (s t : State) : Prop := ∃ n, Sys2Proof.core.run n s = .next t

/-- The instruction transfers to itself and changes nothing: "a taken branch with `imm = 0`, or `jal x0` with
`imm = 0`, or `jalr x0, rs1, imm` whose target is its own address" (R218). -/
def selfTransfer (i : Instr) (s : State) : Bool :=
  match i with
  | .beq rs1 rs2 off => off == 0#13 && s.readReg rs1 == s.readReg rs2
  | .bne rs1 rs2 off => off == 0#13 && s.readReg rs1 != s.readReg rs2
  | .blt rs1 rs2 off => off == 0#13 && ltSigned (s.readReg rs1) (s.readReg rs2)
  | .bge rs1 rs2 off => off == 0#13 && !ltSigned (s.readReg rs1) (s.readReg rs2)
  | .bltu rs1 rs2 off => off == 0#13 && ltUnsigned (s.readReg rs1) (s.readReg rs2)
  | .bgeu rs1 rs2 off => off == 0#13 && !ltUnsigned (s.readReg rs1) (s.readReg rs2)
  | .jal rd off => rd == 0 && off == 0#21
  | .jalr rd rs1 imm => rd == 0 && jalrTarget s rs1 imm == s.pc
  | .lb _ _ _ | .lh _ _ _ | .lw _ _ _ | .lbu _ _ _ | .lhu _ _ _
  | .addi _ _ _ | .slli _ _ _ | .slti _ _ _ | .sltiu _ _ _ | .xori _ _ _
  | .srli _ _ _ | .srai _ _ _ | .ori _ _ _ | .andi _ _ _ | .auipc _ _ | .lui _ _
  | .sb _ _ _ | .sh _ _ _ | .sw _ _ _
  | .add _ _ _ | .sub _ _ _ | .sll _ _ _ | .slt _ _ _ | .sltu _ _ _ | .xor _ _ _
  | .srl _ _ _ | .sra _ _ _ | .or _ _ _ | .and _ _ _ => false

/-- The default of the parameter `HALT` (R218, D25): `pc` stands at an instruction that transfers to itself and
changes nothing. The word must be plain memory: a device byte could read otherwise the next time. -/
def State.halts (s : State) : Bool :=
  match fetch s with
  | .next (w, s') =>
    aligned s.pc .word && (s'.draws == s.draws) &&
      match decode w with
      | .ok i => selfTransfer i s
      | .error _ => false
  | .fault _ => false
  | .refused _ => false

/-- The run from `s` ends in `t` by the predicate `halt` a host chooses (R218: "the first state that satisfies
`HALT`"). A run that faults or is refused has not ended (R180). -/
def EndsIn (halt : State → Bool) (s t : State) : Prop :=
  ∃ n, Sys2Proof.core.run n s = .next t ∧ halt t = true ∧
    ∀ m, m < n → ∀ u, Sys2Proof.core.run m s = .next u → halt u = false

end Sys2Proof.Machine
end

