-- ==== Sys2Proof/Certificates/Slice0/Obligations.lean ====
section
/-! DEFINITION. The statements for the provers, from the numbered rules of spec/. OBLIGATIONS.json lists them. -/

open Sys2Proof Sys2Proof.Config Sys2Proof.Machine

/-! ### Encoding -/

/-- Decoding the word of a well-formed instruction gives it back, for all 37 (R71 to R76, R78 to R84). -/
def Obligations.DecodeInvertsEncode : Prop :=
  ∀ i : Instr, i.wf = true → decode (encode i) = .ok i

/-- A word that decodes is the word of the instruction it decodes to, and that is well-formed: no bit is dropped. -/
def Obligations.EncodeInvertsDecode : Prop :=
  ∀ (w : Word) (i : Instr), decode w = .ok i → i.wf = true ∧ encode i = w

/-- The decoder by fields and the opcode table by match and mask are the same partition of the words (R85). -/
def Obligations.DecoderAgreesWithOpcodeTable : Prop :=
  ∀ (w : Word) (row : OpcodeRow), row ∈ opcodeTable →
    (w &&& row.mask = row.fixed ↔ ∃ i, decode w = .ok i ∧ i.mnemonic = row.mnemonic)

/-- "No two rows can match the same word" (R85). -/
def Obligations.NoWordFitsTwoRows : Prop :=
  ∀ (w : Word) (r q : OpcodeRow), r ∈ opcodeTable → q ∈ opcodeTable →
    w &&& r.mask = r.fixed → w &&& q.mask = q.fixed → r = q

/-- R88 with its whole table: a fetched word raises `IllegalInstruction(word)` exactly when it is one of these (and none
is refused as `NotInSource`: log entry 15). -/
def Obligations.UnlistedWordsFault : Prop :=
  ∀ (s s' : State) (w : Word), fetch s = .next (w, s') →
    (step s = .fault (.illegalInstruction s.pc w) ↔
      (opField w ∉ [0b0000011#7, 0b0010011#7, 0b0010111#7, 0b0100011#7, 0b0110011#7, 0b0110111#7, 0b1100011#7,
          0b1100111#7, 0b1101111#7]) ∨
      (opField w = 0b0000011#7 ∧ funct3Field w ∈ [0b011#3, 0b110#3, 0b111#3]) ∨
      (opField w = 0b0010011#7 ∧
        ((funct3Field w = 0b001#3 ∧ funct7Field w ≠ 0b0000000#7) ∨
         (funct3Field w = 0b101#3 ∧ funct7Field w ≠ 0b0000000#7 ∧ funct7Field w ≠ 0b0100000#7))) ∨
      (opField w = 0b0100011#7 ∧ funct3Field w ∈ [0b011#3, 0b100#3, 0b101#3, 0b110#3, 0b111#3]) ∨
      (opField w = 0b0110011#7 ∧
        ((funct7Field w ≠ 0b0000000#7 ∧ funct7Field w ≠ 0b0100000#7) ∨
         (funct7Field w = 0b0100000#7 ∧ funct3Field w ≠ 0b000#3 ∧ funct3Field w ≠ 0b101#3))) ∨
      (opField w = 0b1100011#7 ∧ funct3Field w ∈ [0b010#3, 0b011#3]) ∨
      (opField w = 0b1100111#7 ∧ funct3Field w ≠ 0b000#3))

/-- Five words the source prints (`95_test_vectors.md` 1.1) and three the spec derives, `lbu`, `jalr` and `lui` (1.5, 2.7,
2.3), decode to the instructions they stand for. -/
def Obligations.PrintedWordsDecode : Prop :=
  decode 0xFF718393#32 = .ok (.addi 7 3 (-9)) ∧
  decode 0x407103B3#32 = .ok (.sub 7 2 7) ∧
  decode 0x0471AA23#32 = .ok (.sw 7 3 84) ∧
  decode 0x06004103#32 = .ok (.lbu 2 0 96) ∧
  decode 0xFE420AE3#32 = .ok (.beq 4 4 (-12)) ∧
  decode 0x008001EF#32 = .ok (.jal 3 8) ∧
  decode 0x008280E7#32 = .ok (.jalr 1 5 8) ∧
  decode 0x123452B7#32 = .ok (.lui 5 0x12345)

/-! ### Fetch and step -/

/-- R46: a byte of the word at `pc` that is not executable faults; otherwise the four bytes, lowest address in the
low bits, are the word (here where the word is plain memory and fetches see stores). -/
def Obligations.FetchReadsLittleEndianWord : Prop :=
  ∀ s : State, s.pc.toNat % 4 = 0 →
    ((∃ k, k < 4 ∧ s.executable (s.pc.toNat + k) = false) →
      fetch s = .fault (.instructionAccessFault s.pc s.pc) ∧
      step s = .fault (.instructionAccessFault s.pc s.pc)) ∧
    (PlainExecutable s s.pc 4 → s.params.fetchSeesStores = .sees →
      fetch s = .next (s.byteAt (s.pc.toNat + 3) ++ s.byteAt (s.pc.toNat + 2) ++
        s.byteAt (s.pc.toNat + 1) ++ s.byteAt s.pc.toNat, s))

/-- The step runs what the bytes at `pc` decode to, in the state as it stands: nothing is added around `exec`. -/
def Obligations.StepRunsDecodedInstruction : Prop :=
  ∀ (s : State) (i : Instr), s.pc.toNat % 4 = 0 → PlainExecutable s s.pc 4 →
    s.params.fetchSeesStores = .sees →
    decode (s.byteAt (s.pc.toNat + 3) ++ s.byteAt (s.pc.toNat + 2) ++
      s.byteAt (s.pc.toNat + 1) ++ s.byteAt s.pc.toNat) = .ok i →
    step s = exec i s

/-- The model's interface (log entry 5): in any state, an instruction placed for the next fetch is the one the next
step runs, and placing it changes no register, not `pc` and not the draws. -/
def Obligations.PlacedInstructionRunsNext : Prop :=
  ∀ (s : State) (i : Instr), i.wf = true →
    step (s.withFetchWord 32 (encode i).toNat) = exec i (s.withFetchWord 32 (encode i).toNat) ∧
    (s.withFetchWord 32 (encode i).toNat).regs = s.regs ∧
    (s.withFetchWord 32 (encode i).toNat).pc = s.pc ∧
    (s.withFetchWord 32 (encode i).toNat).draws = s.draws

/-- `FETCH_SEES_STORES = true` (R55, R31): a word stored to code is the word a later fetch there reads. -/
def Obligations.FetchSeesStoredWord : Prop :=
  ∀ (s t : State) (rs2 rs1 : Reg) (imm : BitVec 12), s.params.fetchSeesStores = .sees →
    PlainExecutable s (effectiveAddress s rs1 imm) 4 → exec (.sw rs2 rs1 imm) s = .next t →
    fetch (t.setPc (effectiveAddress s rs1 imm)) =
      .next (s.readReg rs2, t.setPc (effectiveAddress s rs1 imm))

/-- `FETCH_SEES_STORES = false` (R55): no store changes what a fetch of plain memory reads. -/
def Obligations.FetchIgnoringStoresKeepsWord : Prop :=
  ∀ (s t : State) (i : Instr) (w : Width) (p word : Word), s.params.fetchSeesStores = .ignores →
    kindOf i = .store w → exec i s = .next t → p.toNat % 4 = 0 → PlainExecutable s p 4 →
    fetch (s.setPc p) = .next (word, s.setPc p) → fetch (t.setPc p) = .next (word, t.setPc p)

/-- `FETCH_SEES_STORES` at refuse (R55, R183), refused at the fetch as the model chooses (log entry 8): after a store
to a byte of the word at `p`, fetching that word is refused, and the refusal names a byte of it. -/
def Obligations.FetchOfStoredCodeRefused : Prop :=
  ∀ (s t : State) (i : Instr) (w : Width) (e : StoreEvent) (p : Word) (k : Nat),
    s.params.fetchSeesStores = .refuse → kindOf i = .store w → exec i s = .next t →
    t.stores = s.stores ++ [e] → p.toNat % 4 = 0 → PlainExecutable s p 4 →
    k < 4 → e.addr.toNat ≤ p.toNat + k → p.toNat + k < e.addr.toNat + widthBytes w →
    ∃ b : Word, step (t.setPc p) = .refused (.storeToCode b) ∧ p.toNat ≤ b.toNat ∧ b.toNat < p.toNat + 4

/-! ### Loads -/

/-- `lb` and `lbu` of a byte of plain memory (R101, R104): the signed or unsigned reading of the byte. -/
def Obligations.LoadByteExtends : Prop :=
  ∀ (s : State) (rd rs1 : Reg) (imm : BitVec 12), PlainReadable s (effectiveAddress s rs1 imm) 1 →
    Yields (.lb rd rs1 imm) s rd (fun v => v.toInt = (s.byteAt (effectiveAddress s rs1 imm).toNat).toInt) ∧
    Yields (.lbu rd rs1 imm) s rd (fun v => v.toNat = (s.byteAt (effectiveAddress s rs1 imm).toNat).toNat)

/-- `lh` and `lhu` of an even address in plain memory (R102, R105): the two bytes, low address low, read as signed
or unsigned. -/
def Obligations.LoadHalfExtends : Prop :=
  ∀ (s : State) (rd rs1 : Reg) (imm : BitVec 12) (a : Nat), a = (effectiveAddress s rs1 imm).toNat →
    a % 2 = 0 → PlainReadable s (effectiveAddress s rs1 imm) 2 →
    Yields (.lh rd rs1 imm) s rd (fun v => v.toInt = (s.byteAt (a + 1) ++ s.byteAt a).toInt) ∧
    Yields (.lhu rd rs1 imm) s rd (fun v => v.toNat = (s.byteAt a).toNat + 256 * (s.byteAt (a + 1)).toNat)

/-- `lw` of a multiple of 4 in plain memory (R103): the four bytes, low address low. -/
def Obligations.LoadWordAssembles : Prop :=
  ∀ (s : State) (rd rs1 : Reg) (imm : BitVec 12) (a : Nat), a = (effectiveAddress s rs1 imm).toNat →
    a % 4 = 0 → PlainReadable s (effectiveAddress s rs1 imm) 4 →
    Yields (.lw rd rs1 imm) s rd (fun v =>
      v.toNat = (s.byteAt a).toNat + 256 * (s.byteAt (a + 1)).toNat + 65536 * (s.byteAt (a + 2)).toNat +
        16777216 * (s.byteAt (a + 3)).toNat)

/-- Every load of an aligned, readable access completes, devices or not (R44, R100): only `rd`, `pc` and the count of
draws change, and that by the device bytes read. -/
def Obligations.LoadsCompleteWhenReadable : Prop :=
  ∀ (s : State) (i : Instr) (w : Width) (rd rs1 : Reg) (imm : BitVec 12), kindOf i = .load w →
    i ∈ [.lb rd rs1 imm, .lh rd rs1 imm, .lw rd rs1 imm, .lbu rd rs1 imm, .lhu rd rs1 imm] →
    (effectiveAddress s rs1 imm).toNat % widthBytes w = 0 →
    (∀ k, k < widthBytes w → s.readable ((effectiveAddress s rs1 imm).toNat + k) = true) →
    ∃ t, exec i s = .next t ∧ RegsKeptBut rd s t ∧ PcAdvanced s t ∧ (∀ x, t.byteAt x = s.byteAt x) ∧
      t.params = s.params ∧ t.stores = s.stores ∧
      t.draws = s.draws +
        ((List.range (widthBytes w)).countP fun k => s.isDevice ((effectiveAddress s rs1 imm).toNat + k))

/-- A byte load from a device returns a draw, a free value (R49, U19; its arguments are the model's choice, log
entry 9): whatever value the draw has, the register holds its extension, and one draw is counted. -/
def Obligations.DeviceByteLoadIsDraw : Prop :=
  ∀ (s : State) (rd rs1 : Reg) (imm : BitVec 12) (a : Nat), a = (effectiveAddress s rs1 imm).toNat →
    s.readable a = true → s.isDevice a = true →
    (∃ t v, exec (.lbu rd rs1 imm) s = .next t ∧ v.toNat = (deviceByte s.stores s.draws a).toNat ∧
      WritesReg s t rd v ∧ PcAdvanced s t ∧ t.draws = s.draws + 1 ∧ ∀ x, t.byteAt x = s.byteAt x) ∧
    (∃ t v, exec (.lb rd rs1 imm) s = .next t ∧ v.toInt = (deviceByte s.stores s.draws a).toInt ∧
      WritesReg s t rd v ∧ PcAdvanced s t ∧ t.draws = s.draws + 1 ∧ ∀ x, t.byteAt x = s.byteAt x)

/-- R43: a misaligned half or word access faults with the address, whatever the map says of it, and a byte access
never does. -/
def Obligations.MisalignedAccessFaults : Prop :=
  ∀ (s : State) (r rs1 : Reg) (imm : BitVec 12) (a : Word), a = effectiveAddress s rs1 imm →
    (a.toNat % 2 ≠ 0 →
      exec (.lh r rs1 imm) s = .fault (.loadAddressMisaligned s.pc a) ∧
      exec (.lhu r rs1 imm) s = .fault (.loadAddressMisaligned s.pc a) ∧
      exec (.sh r rs1 imm) s = .fault (.storeAddressMisaligned s.pc a)) ∧
    (a.toNat % 4 ≠ 0 →
      exec (.lw r rs1 imm) s = .fault (.loadAddressMisaligned s.pc a) ∧
      exec (.sw r rs1 imm) s = .fault (.storeAddressMisaligned s.pc a)) ∧
    (∀ f, exec (.lb r rs1 imm) s = .fault f ∨ exec (.lbu r rs1 imm) s = .fault f ∨
        exec (.sb r rs1 imm) s = .fault f →
      f = .loadAccessFault s.pc a ∨ f = .storeAccessFault s.pc a)

/-- R44, R45, R185: an aligned access one of whose bytes lacks the permission faults with its address. -/
def Obligations.UnpermittedAccessFaults : Prop :=
  ∀ (s : State) (r rs1 : Reg) (imm : BitVec 12) (a : Word), a = effectiveAddress s rs1 imm →
    (s.readable a.toNat = false →
      exec (.lb r rs1 imm) s = .fault (.loadAccessFault s.pc a) ∧
      exec (.lbu r rs1 imm) s = .fault (.loadAccessFault s.pc a)) ∧
    (a.toNat % 2 = 0 → (∃ k, k < 2 ∧ s.readable (a.toNat + k) = false) →
      exec (.lh r rs1 imm) s = .fault (.loadAccessFault s.pc a) ∧
      exec (.lhu r rs1 imm) s = .fault (.loadAccessFault s.pc a)) ∧
    (a.toNat % 4 = 0 → (∃ k, k < 4 ∧ s.readable (a.toNat + k) = false) →
      exec (.lw r rs1 imm) s = .fault (.loadAccessFault s.pc a)) ∧
    (s.writable a.toNat = false → exec (.sb r rs1 imm) s = .fault (.storeAccessFault s.pc a)) ∧
    (a.toNat % 2 = 0 → (∃ k, k < 2 ∧ s.writable (a.toNat + k) = false) →
      exec (.sh r rs1 imm) s = .fault (.storeAccessFault s.pc a)) ∧
    (a.toNat % 4 = 0 → (∃ k, k < 4 ∧ s.writable (a.toNat + k) = false) →
      exec (.sw r rs1 imm) s = .fault (.storeAccessFault s.pc a))

/-! ### Stores -/

/-- `sb`, `sh` and `sw` of an aligned, writable access (R131, R132, R133): exactly their bytes are written, and the
store is recorded. A device byte among them keeps what memory lists for it (log entry 11). -/
def Obligations.StoresWriteTheirBytes : Prop :=
  ∀ (s : State) (rs2 rs1 : Reg) (imm : BitVec 12) (a : Word), a = effectiveAddress s rs1 imm →
    (s.writable a.toNat = true → StoreWrites (.sb rs2 rs1 imm) s a .byte 1 (s.readReg rs2)) ∧
    (a.toNat % 2 = 0 → (∀ k, k < 2 → s.writable (a.toNat + k) = true) →
      StoreWrites (.sh rs2 rs1 imm) s a .half 2 (s.readReg rs2)) ∧
    (a.toNat % 4 = 0 → (∀ k, k < 4 → s.writable (a.toNat + k) = true) →
      StoreWrites (.sw rs2 rs1 imm) s a .word 4 (s.readReg rs2))

/-- R42: what a mixed-width access sees. After `sw` of `v` to `A`, `lbu` at `A+i` and `lhu` at `A+2i` read their
slices of `v`; after four `sb`, or two `sh`, `lw` reads their values in little-endian order. -/
def Obligations.MixedWidthAccess : Prop :=
  (∀ (s t : State) (rs2 rs1 : Reg) (imm : BitVec 12) (A v : Word), A = effectiveAddress s rs1 imm →
    v = s.readReg rs2 → PlainReadable s A 4 → exec (.sw rs2 rs1 imm) s = .next t →
    (∀ (i : Nat) (rd q : Reg) (j : BitVec 12), i < 4 → effectiveAddress t q j = A + BitVec.ofNat 32 i →
      Yields (.lbu rd q j) t rd fun x => x.toNat = v.toNat / 256 ^ i % 256) ∧
    (∀ (i : Nat) (rd q : Reg) (j : BitVec 12), i < 2 → effectiveAddress t q j = A + BitVec.ofNat 32 (2 * i) →
      Yields (.lhu rd q j) t rd fun x => x.toNat = v.toNat / 65536 ^ i % 65536)) ∧
  (∀ (s s1 s2 s3 s4 : State) (r0 r1 r2 r3 q0 q1 q2 q3 rd q : Reg) (j0 j1 j2 j3 j : BitVec 12) (A : Word),
    A.toNat % 4 = 0 → PlainReadable s A 4 →
    effectiveAddress s q0 j0 = A → effectiveAddress s q1 j1 = A + 1#32 →
    effectiveAddress s q2 j2 = A + 2#32 → effectiveAddress s q3 j3 = A + 3#32 →
    exec (.sb r0 q0 j0) s = .next s1 → exec (.sb r1 q1 j1) s1 = .next s2 →
    exec (.sb r2 q2 j2) s2 = .next s3 → exec (.sb r3 q3 j3) s3 = .next s4 →
    effectiveAddress s q j = A →
    Yields (.lw rd q j) s4 rd fun x =>
      x.toNat = (s.readReg r0).toNat % 256 + 256 * ((s.readReg r1).toNat % 256) +
        65536 * ((s.readReg r2).toNat % 256) + 16777216 * ((s.readReg r3).toNat % 256)) ∧
  (∀ (s s1 s2 : State) (r0 r1 q0 q1 rd q : Reg) (j0 j1 j : BitVec 12) (A : Word),
    A.toNat % 4 = 0 → PlainReadable s A 4 →
    effectiveAddress s q0 j0 = A → effectiveAddress s q1 j1 = A + 2#32 →
    exec (.sh r0 q0 j0) s = .next s1 → exec (.sh r1 q1 j1) s1 = .next s2 →
    effectiveAddress s q j = A →
    Yields (.lw rd q j) s2 rd fun x =>
      x.toNat = (s.readReg r0).toNat % 65536 + 65536 * ((s.readReg r1).toNat % 65536)) ∧
  (∀ (s t : State) (i : Instr) (rs2 rs1 : Reg) (imm : BitVec 12) (n : Nat),
    (i, n) ∈ [(Instr.sb rs2 rs1 imm, 1), (Instr.sh rs2 rs1 imm, 2)] → exec i s = .next t →
    ∀ x, x < (effectiveAddress s rs1 imm).toNat ∨ (effectiveAddress s rs1 imm).toNat + n ≤ x →
      t.byteAt x = s.byteAt x)

/-! ### Arithmetic -/

/-- `add`, `sub` and `addi` are modulo 2^32 in both readings and complete always (R111, R140 to R142). -/
def Obligations.AddSubWrap : Prop :=
  ∀ (s : State) (rd rs1 rs2 : Reg) (imm : BitVec 12),
    Yields (.add rd rs1 rs2) s rd (fun v =>
      v.toNat = ((s.readReg rs1).toNat + (s.readReg rs2).toNat) % 4294967296 ∧
      v.toInt = ((s.readReg rs1).toInt + (s.readReg rs2).toInt).bmod 4294967296) ∧
    Yields (.sub rd rs1 rs2) s rd (fun v =>
      v.toNat = ((s.readReg rs1).toNat + 4294967296 - (s.readReg rs2).toNat) % 4294967296 ∧
      v.toInt = ((s.readReg rs1).toInt - (s.readReg rs2).toInt).bmod 4294967296) ∧
    Yields (.addi rd rs1 imm) s rd (fun v =>
      v.toInt = ((s.readReg rs1).toInt + imm.toInt).bmod 4294967296)

/-- `xor`, `or`, `and` and their immediate forms work bit by bit; bits 31:12 of the immediate are copies of its bit 11
(R115, R118, R119, R146, R149, R150). -/
def Obligations.LogicIsBitwise : Prop :=
  ∀ (s : State) (rd rs1 rs2 : Reg) (imm : BitVec 12),
    Yields (.xor rd rs1 rs2) s rd (fun v => ∀ k, k < 32 →
      v.getLsbD k = ((s.readReg rs1).getLsbD k != (s.readReg rs2).getLsbD k)) ∧
    Yields (.or rd rs1 rs2) s rd (fun v => ∀ k, k < 32 →
      v.getLsbD k = ((s.readReg rs1).getLsbD k || (s.readReg rs2).getLsbD k)) ∧
    Yields (.and rd rs1 rs2) s rd (fun v => ∀ k, k < 32 →
      v.getLsbD k = ((s.readReg rs1).getLsbD k && (s.readReg rs2).getLsbD k)) ∧
    Yields (.xori rd rs1 imm) s rd (fun v => ∀ k, k < 32 →
      v.getLsbD k = ((s.readReg rs1).getLsbD k != imm.getLsbD (min k 11))) ∧
    Yields (.ori rd rs1 imm) s rd (fun v => ∀ k, k < 32 →
      v.getLsbD k = ((s.readReg rs1).getLsbD k || imm.getLsbD (min k 11))) ∧
    Yields (.andi rd rs1 imm) s rd (fun v => ∀ k, k < 32 →
      v.getLsbD k = ((s.readReg rs1).getLsbD k && imm.getLsbD (min k 11)))

/-- The six shifts (R112, R116, R117, R143, R147, R148; R140 law (e)): the amount is `uimm`, or `x[rs2]` modulo 32;
left multiplies modulo 2^32, right logical divides the unsigned reading, right arithmetic is the floor of the signed
reading divided. -/
def Obligations.ShiftsScale : Prop :=
  ∀ (s : State) (rd rs1 rs2 : Reg) (uimm : BitVec 5),
    Yields (.sll rd rs1 rs2) s rd (fun v =>
      v.toNat = (s.readReg rs1).toNat * 2 ^ ((s.readReg rs2).toNat % 32) % 4294967296) ∧
    Yields (.srl rd rs1 rs2) s rd (fun v =>
      v.toNat = (s.readReg rs1).toNat / 2 ^ ((s.readReg rs2).toNat % 32)) ∧
    Yields (.sra rd rs1 rs2) s rd (fun v =>
      v.toInt = (s.readReg rs1).toInt.fdiv (2 ^ ((s.readReg rs2).toNat % 32))) ∧
    Yields (.slli rd rs1 uimm) s rd (fun v =>
      v.toNat = (s.readReg rs1).toNat * 2 ^ uimm.toNat % 4294967296) ∧
    Yields (.srli rd rs1 uimm) s rd (fun v => v.toNat = (s.readReg rs1).toNat / 2 ^ uimm.toNat) ∧
    Yields (.srai rd rs1 uimm) s rd (fun v => v.toInt = (s.readReg rs1).toInt.fdiv (2 ^ uimm.toNat))

/-- The four comparisons write exactly 0 or 1 (R113, R114, R144, R145; R140 law (f)); `sltiu` compares with the
sign-extended immediate read as unsigned. -/
def Obligations.ComparisonsWriteTruth : Prop :=
  ∀ (s : State) (rd rs1 rs2 : Reg) (imm : BitVec 12),
    Yields (.slt rd rs1 rs2) s rd (fun v =>
      v.toNat = if (s.readReg rs1).toInt < (s.readReg rs2).toInt then 1 else 0) ∧
    Yields (.sltu rd rs1 rs2) s rd (fun v =>
      v.toNat = if (s.readReg rs1).toNat < (s.readReg rs2).toNat then 1 else 0) ∧
    Yields (.slti rd rs1 imm) s rd (fun v =>
      v.toNat = if (s.readReg rs1).toInt < imm.toInt then 1 else 0) ∧
    Yields (.sltiu rd rs1 imm) s rd (fun v =>
      v.toNat = if ((s.readReg rs1).toNat : Int) < imm.toInt % 4294967296 then 1 else 0)

/-- `lui` and `auipc` (R125, R126): `upimm` times 4096, for `auipc` added to `pc` modulo 2^32. -/
def Obligations.UpperImmediates : Prop :=
  ∀ (s : State) (rd : Reg) (upimm : BitVec 20),
    Yields (.lui rd upimm) s rd (fun v => v.toNat = upimm.toNat * 4096) ∧
    Yields (.auipc rd upimm) s rd (fun v => v.toNat = (s.pc.toNat + upimm.toNat * 4096) % 4294967296)

/-! ### Branches and jumps -/

/-- `beq` and `bne` (R155, R156, R157). -/
def Obligations.EqualityBranches : Prop :=
  ∀ (s : State) (rs1 rs2 : Reg) (off : BitVec 13),
    BranchBehaves (.beq rs1 rs2 off) s ((s.readReg rs1).toNat = (s.readReg rs2).toNat) off ∧
    BranchBehaves (.bne rs1 rs2 off) s ((s.readReg rs1).toNat ≠ (s.readReg rs2).toNat) off

/-- `blt`, `bge`, `bltu` and `bgeu` (R155, R158 to R161). -/
def Obligations.OrderBranches : Prop :=
  ∀ (s : State) (rs1 rs2 : Reg) (off : BitVec 13),
    BranchBehaves (.blt rs1 rs2 off) s ((s.readReg rs1).toInt < (s.readReg rs2).toInt) off ∧
    BranchBehaves (.bge rs1 rs2 off) s ((s.readReg rs1).toInt ≥ (s.readReg rs2).toInt) off ∧
    BranchBehaves (.bltu rs1 rs2 off) s ((s.readReg rs1).toNat < (s.readReg rs2).toNat) off ∧
    BranchBehaves (.bgeu rs1 rs2 off) s ((s.readReg rs1).toNat ≥ (s.readReg rs2).toNat) off

/-- `jal` (R170, R172). -/
def Obligations.JalLinksAndJumps : Prop :=
  ∀ (s : State) (rd : Reg) (off : BitVec 21),
    JumpBehaves (.jal rd off) s rd (BitVec.ofInt 32 (s.pc.toNat + off.toInt))

/-- `jalr` (R170, R171) under both settings of `JALR_CLEARS_BIT0`: the target comes from the old `rs1`. -/
def Obligations.JalrLinksAndJumps : Prop :=
  ∀ (s : State) (rd rs1 : Reg) (imm : BitVec 12) (sum : Nat),
    sum = (BitVec.ofInt 32 ((s.readReg rs1).toNat + imm.toInt)).toNat →
    (s.params.jalrClearsBit0 = true →
      JumpBehaves (.jalr rd rs1 imm) s rd (BitVec.ofNat 32 (sum - sum % 2))) ∧
    (s.params.jalrClearsBit0 = false → JumpBehaves (.jalr rd rs1 imm) s rd (BitVec.ofNat 32 sum))

/-- R51: an address is the 32-bit sum with the carry discarded, and no aligned access spans the wrap. -/
def Obligations.AddressSumWraps : Prop :=
  ∀ (s : State) (rs1 : Reg) (imm : BitVec 12),
    (((effectiveAddress s rs1 imm).toNat : Int) = ((s.readReg rs1).toNat + imm.toInt) % 4294967296) ∧
    (s.readReg rs1 = 0x00000004#32 → effectiveAddress s rs1 (-8) = 0xFFFFFFFC#32) ∧
    (s.readReg rs1 = 0xFFFFFFFC#32 → effectiveAddress s rs1 8 = 0x00000004#32) ∧
    ∀ w : Width, aligned (effectiveAddress s rs1 imm) w = true →
      (effectiveAddress s rs1 imm).toNat + widthBytes w ≤ 4294967296

/-! ### Rules of the whole machine -/

/-- R25: where `pc` goes, for all 37 instructions, whenever one completes. -/
def Obligations.PcGoesWhereTheRuleSays : Prop :=
  ∀ (s t : State) (i : Instr), exec i s = .next t → t.pc = nextPc i s

/-- R20, R47: no register changes but the instruction's `rd`; S- and B-type instructions change none, and no base
register is updated. -/
def Obligations.OnlyDestinationChanges : Prop :=
  ∀ (s t : State) (i : Instr), exec i s = .next t →
    (∀ r, destOf i ≠ some r → t.readReg r = s.readReg r) ∧ t.readReg 0 = 0#32

/-- R22, R90: with `rd = x0` an instruction executes in full, its memory access, its faults and its `pc` update as
with any other destination, and its result is discarded. -/
def Obligations.WriteToX0Discarded : Prop :=
  ∀ (s : State) (i : Instr) (rd : Reg), destOf i = some rd →
    (∀ t, exec i s = .next t → exec (toX0 i) s = .next { t with regs := s.regs }) ∧
    (∀ f, exec i s = .fault f → exec (toX0 i) s = .fault f) ∧
    (∀ t, exec (toX0 i) s = .next t → t.regs = s.regs ∧ ∃ u, exec i s = .next u)

/-- R182, R181: a step raises no fault but those listed for its instruction, and each records the address of the raising
instruction. -/
def Obligations.FaultsOfEachInstruction : Prop :=
  ∀ (s : State) (f : Fault), step s = .fault f →
    f.pc = s.pc ∧
    ((f = .instructionAccessFault s.pc s.pc ∧ fetch s = .fault f) ∨
     (∃ w s', fetch s = .next (w, s') ∧
       ((f = .illegalInstruction s.pc w ∧ ∀ i, decode w ≠ .ok i) ∨
        (∃ i, decode w = .ok i ∧ exec i s' = .fault f ∧ (kindOf i).mayRaise f))))

/-- R183 as the model takes it (log entries 1, 8 and 15): no instruction is refused, and a step is refused only for
fetching a stored byte when `FETCH_SEES_STORES` is refuse. -/
def Obligations.OnlyStoredCodeRefused : Prop :=
  (∀ (s : State) (i : Instr) (q : Refusal), exec i s ≠ .refused q) ∧
  (∀ (s : State) (q : Refusal), step s = .refused q →
    s.params.fetchSeesStores = .refuse ∧ ∃ a : Word, q = .storeToCode a ∧ s.storedTo a.toNat = true)

/-- The parameters of a run never change (R6, R219; standing in the state is the model's choice, log entry 12). -/
def Obligations.StepKeepsParams : Prop :=
  ∀ s t : State, step s = .next t → t.params = s.params

/-- Memory changes only by a store (R31, R44, R45): a byte that differs after a step is writable plain memory, one
store was recorded in that step, and it wrote that byte. -/
def Obligations.MemoryChangesOnlyByStores : Prop :=
  ∀ (s t : State) (a : Nat), step s = .next t → t.byteAt a ≠ s.byteAt a →
    s.writable a = true ∧ s.isDevice a = false ∧
    ∃ e, t.stores = s.stores ++ [e] ∧ e.addr.toNat ≤ a ∧ a < e.addr.toNat + widthBytes e.width ∧
      t.byteAt a = BitVec.ofNat 8 (e.value.toNat / 256 ^ (a - e.addr.toNat))

/-- A step records at most one store, after the earlier ones (R219: in program order). -/
def Obligations.StoresRecordedInOrder : Prop :=
  ∀ s t : State, step s = .next t →
    t.stores = s.stores ∨ ∃ e, t.stores = s.stores ++ [e] ∧ ∃ w s' i, fetch s = .next (w, s') ∧
      decode w = .ok i ∧ kindOf i = .store e.width

/-- Every step keeps the invariant: `pc` a multiple of 4 (R27), memory in canonical form (the model's choice, log
entry 4) and backed, and every recorded store (R219; the record and its narrow values are the model's choice, log entry
13) aligned and writable. -/
def Obligations.StepKeepsInvariant : Prop :=
  ∀ s t : State, Inv s → step s = .next t → Inv t

/-- The reset state of log entries 1 to 7 meets the invariant. -/
def Obligations.ResetMeetsInvariant : Prop := Inv State.reset

/-- Whatever parameters a host may give (R33), the state after reset meets the invariant and holds what it gave
(the canonical form and the record of stores: log entries 4 and 13). -/
def Obligations.HostResetMeetsInvariant : Prop :=
  ∀ p : Params, ParamsOk p →
    Inv (State.resetWith p) ∧ (State.resetWith p).pc = p.resetPc ∧ (State.resetWith p).readReg 0 = 0#32 ∧
    (∀ (k : Nat) (h : k < 31), (State.resetWith p).readReg ⟨k + 1, by omega⟩ = p.initRegs[k]) ∧
    (∀ (a : Nat) (b : Byte), Memory.get? p.initMem a = some b → (State.resetWith p).byteAt a = b)

/-- Every step keeps R53 (b): each plain byte holds what the most recent store to it wrote, or its `INIT_MEM` value
(the record of stores: log entry 13). -/
def Obligations.StepKeepsLatestStores : Prop :=
  ∀ s t : State, HoldsLatestStores s → step s = .next t → HoldsLatestStores t

/-- It holds after reset, whatever the parameters (a byte `INIT_MEM` does not give: log entry 4). -/
def Obligations.ResetHoldsLatestStores : Prop :=
  ∀ p : Params, HoldsLatestStores (State.resetWith p)

/-- R53 (b) at a load: in a state that keeps it, a byte load of plain memory returns what the most recent recorded
store to the byte wrote (log entry 13). -/
def Obligations.LoadReturnsLatestStore : Prop :=
  ∀ (s : State) (rd rs1 : Reg) (imm : BitVec 12) (e : StoreEvent), HoldsLatestStores s →
    PlainReadable s (effectiveAddress s rs1 imm) 1 →
    lastStore s.stores (effectiveAddress s rs1 imm).toNat = some e →
    Yields (.lbu rd rs1 imm) s rd fun v =>
      v.toNat = e.value.toNat / 256 ^ ((effectiveAddress s rs1 imm).toNat - e.addr.toNat) % 256

/-- R218: a state where the default `HALT` holds is a fixed point, so any number of steps stays there. `State.halts` is
the model's reading of it (log entry 16): `pc` a multiple of 4 and no device byte drawn by the fetch. -/
def Obligations.HaltIsFixedPoint : Prop :=
  ∀ (s : State) (n : Nat), s.halts = true → core.run n s = .next s

/-- R218: "the final state" is well defined: a run has at most one state in which the default `HALT` holds,
as `State.halts` takes it (log entry 16). -/
def Obligations.FinalStateIsUnique : Prop :=
  ∀ s t u : State, Reaches s t → Reaches s u → t.halts = true → u.halts = true → t = u

/-- Isolation by the map (R44, R45, R46, R56): a byte that is neither readable, writable nor executable can hold
anything, and the step goes the same way; only that byte differs afterwards (stores and draws: log entries 9 and 13). -/
def Obligations.InaccessibleByteIsInvisible : Prop :=
  ∀ (s t : State) (a : Nat) (b : Byte),
    s.readable a = false → s.writable a = false → s.executable a = false → step s = .next t →
    ∃ u, step { s with mem := s.mem.set a b } = .next u ∧ u.regs = t.regs ∧ u.pc = t.pc ∧
      u.params = t.params ∧ u.stores = t.stores ∧ u.draws = t.draws ∧ u.byteAt a = b ∧
      ∀ x, x ≠ a → u.byteAt x = t.byteAt x
end

