-- ==== Sys2Proof/Laws/State.lean ====
section
/-! SUPPORT. The small lemmas of the state's updates: one per field per update, and how registers read back
(R21, R22), so that no later proof unfolds a record update. -/

namespace Sys2Proof.Machine

/-! ### `setPc` and `advance` -/

@[simp] theorem State.setPc_regs (s : State) (t : Word) : (s.setPc t).regs = s.regs := rfl
@[simp] theorem State.setPc_pc (s : State) (t : Word) : (s.setPc t).pc = t := rfl
@[simp] theorem State.setPc_mem (s : State) (t : Word) : (s.setPc t).mem = s.mem := rfl
@[simp] theorem State.setPc_params (s : State) (t : Word) : (s.setPc t).params = s.params := rfl
@[simp] theorem State.setPc_stores (s : State) (t : Word) : (s.setPc t).stores = s.stores := rfl
@[simp] theorem State.setPc_draws (s : State) (t : Word) : (s.setPc t).draws = s.draws := rfl

@[simp] theorem State.advance_regs (s : State) : s.advance.regs = s.regs := rfl
@[simp] theorem State.advance_pc (s : State) : s.advance.pc = s.pc + 4#32 := rfl
@[simp] theorem State.advance_mem (s : State) : s.advance.mem = s.mem := rfl
@[simp] theorem State.advance_params (s : State) : s.advance.params = s.params := rfl
@[simp] theorem State.advance_stores (s : State) : s.advance.stores = s.stores := rfl
@[simp] theorem State.advance_draws (s : State) : s.advance.draws = s.draws := rfl

/-! ### `writeReg` -/

@[simp] theorem State.writeReg_zero (s : State) (v : Word) : s.writeReg 0 v = s := rfl
@[simp] theorem State.writeReg_pc (s : State) (r : Reg) (v : Word) : (s.writeReg r v).pc = s.pc := by
  unfold State.writeReg; split <;> rfl
@[simp] theorem State.writeReg_mem (s : State) (r : Reg) (v : Word) : (s.writeReg r v).mem = s.mem := by
  unfold State.writeReg; split <;> rfl
@[simp] theorem State.writeReg_params (s : State) (r : Reg) (v : Word) : (s.writeReg r v).params = s.params := by
  unfold State.writeReg; split <;> rfl
@[simp] theorem State.writeReg_stores (s : State) (r : Reg) (v : Word) : (s.writeReg r v).stores = s.stores := by
  unfold State.writeReg; split <;> rfl
@[simp] theorem State.writeReg_draws (s : State) (r : Reg) (v : Word) : (s.writeReg r v).draws = s.draws := by
  unfold State.writeReg; split <;> rfl

/-! ### `storeByte` and `recordStore` -/

@[simp] theorem State.storeByte_regs (s : State) (a : Nat) (b : Byte) : (s.storeByte a b).regs = s.regs := by
  unfold State.storeByte; split <;> rfl
@[simp] theorem State.storeByte_pc (s : State) (a : Nat) (b : Byte) : (s.storeByte a b).pc = s.pc := by
  unfold State.storeByte; split <;> rfl
@[simp] theorem State.storeByte_params (s : State) (a : Nat) (b : Byte) :
    (s.storeByte a b).params = s.params := by
  unfold State.storeByte; split <;> rfl
@[simp] theorem State.storeByte_stores (s : State) (a : Nat) (b : Byte) :
    (s.storeByte a b).stores = s.stores := by
  unfold State.storeByte; split <;> rfl
@[simp] theorem State.storeByte_draws (s : State) (a : Nat) (b : Byte) : (s.storeByte a b).draws = s.draws := by
  unfold State.storeByte; split <;> rfl

@[simp] theorem State.storeBytes_regs (s : State) (addr v : Word) (n : Nat) :
    (s.storeBytes addr v n).regs = s.regs := by
  induction n with
  | zero => rfl
  | succ n ih => simp [State.storeBytes, ih]
@[simp] theorem State.storeBytes_pc (s : State) (addr v : Word) (n : Nat) : (s.storeBytes addr v n).pc = s.pc := by
  induction n with
  | zero => rfl
  | succ n ih => simp [State.storeBytes, ih]
@[simp] theorem State.storeBytes_params (s : State) (addr v : Word) (n : Nat) :
    (s.storeBytes addr v n).params = s.params := by
  induction n with
  | zero => rfl
  | succ n ih => simp [State.storeBytes, ih]
@[simp] theorem State.storeBytes_stores (s : State) (addr v : Word) (n : Nat) :
    (s.storeBytes addr v n).stores = s.stores := by
  induction n with
  | zero => rfl
  | succ n ih => simp [State.storeBytes, ih]
@[simp] theorem State.storeBytes_draws (s : State) (addr v : Word) (n : Nat) :
    (s.storeBytes addr v n).draws = s.draws := by
  induction n with
  | zero => rfl
  | succ n ih => simp [State.storeBytes, ih]

@[simp] theorem State.recordStore_regs (s : State) (a : Word) (w : Width) (v : Word) :
    (s.recordStore a w v).regs = s.regs := rfl
@[simp] theorem State.recordStore_pc (s : State) (a : Word) (w : Width) (v : Word) :
    (s.recordStore a w v).pc = s.pc := rfl
@[simp] theorem State.recordStore_mem (s : State) (a : Word) (w : Width) (v : Word) :
    (s.recordStore a w v).mem = s.mem := rfl
@[simp] theorem State.recordStore_params (s : State) (a : Word) (w : Width) (v : Word) :
    (s.recordStore a w v).params = s.params := rfl
@[simp] theorem State.recordStore_stores (s : State) (a : Word) (w : Width) (v : Word) :
    (s.recordStore a w v).stores = s.stores ++ [⟨a, w, widthValue w v⟩] := rfl
@[simp] theorem State.recordStore_draws (s : State) (a : Word) (w : Width) (v : Word) :
    (s.recordStore a w v).draws = s.draws := rfl

/-! ### How registers read back -/

@[simp] theorem State.readReg_zero (s : State) : s.readReg 0 = 0#32 := rfl

/-- Reading a register looks at `regs` alone. -/
theorem State.readReg_congr {s t : State} (h : t.regs = s.regs) (r : Reg) : t.readReg r = s.readReg r := by
  unfold State.readReg; simp [h]

@[simp] theorem State.readReg_setPc (s : State) (t : Word) (r : Reg) : (s.setPc t).readReg r = s.readReg r := rfl
@[simp] theorem State.readReg_advance (s : State) (r : Reg) : s.advance.readReg r = s.readReg r := rfl

/-- A register reads back what was written to it; `x0` reads zero whatever was written (R21, R22). -/
theorem State.readReg_writeReg (s : State) (r q : Reg) (v : Word) :
    (s.writeReg r v).readReg q = if q = r ∧ r ≠ 0 then v else s.readReg q := by
  by_cases hr : r = 0
  · subst hr; simp
  by_cases hq : q = 0
  · subst hq
    have : ¬(0 : Reg) = r := fun h => hr h.symm
    simp [this]
  have h1 : r.val ≠ 0 := fun h => hr (Fin.ext h)
  have h2 : q.val ≠ 0 := fun h => hq (Fin.ext h)
  unfold State.readReg State.writeReg
  rw [if_neg hr, if_neg hq, if_neg hq]
  show (s.regs.set (regIndex r) v (regIndex_lt r))[regIndex q]'(regIndex_lt q) = _
  rw [Vector.getElem_set]
  by_cases he : q = r
  · subst he; simp [hr]
  · have : regIndex r ≠ regIndex q := fun h => he (Fin.ext (by unfold regIndex at h; omega))
    simp [he, this]

theorem State.readReg_writeReg_self (s : State) (r : Reg) (v : Word) :
    (s.writeReg r v).readReg r = if r = 0 then 0#32 else v := by
  rw [State.readReg_writeReg]
  by_cases h : r = 0 <;> simp [h]

theorem State.readReg_writeReg_ne (s : State) {r q : Reg} (v : Word) (h : q ≠ r) :
    (s.writeReg r v).readReg q = s.readReg q := by
  rw [State.readReg_writeReg]; simp [h]

/-! ### The map and the bytes look at `params` and `mem` alone -/

theorem State.byteAt_congr {s t : State} (h : t.mem = s.mem) (a : Nat) : t.byteAt a = s.byteAt a := by
  unfold State.byteAt; rw [h]
theorem State.readable_congr {s t : State} (h : t.params = s.params) (a : Nat) : t.readable a = s.readable a := by
  unfold State.readable; rw [h]
theorem State.writable_congr {s t : State} (h : t.params = s.params) (a : Nat) : t.writable a = s.writable a := by
  unfold State.writable; rw [h]
theorem State.executable_congr {s t : State} (h : t.params = s.params) (a : Nat) :
    t.executable a = s.executable a := by
  unfold State.executable; rw [h]
theorem State.isDevice_congr {s t : State} (h : t.params = s.params) (a : Nat) : t.isDevice a = s.isDevice a := by
  unfold State.isDevice; rw [h]
theorem State.backed_congr {s t : State} (h : t.params = s.params) (a : Nat) : t.backed a = s.backed a := by
  unfold State.backed; rw [h]

end Sys2Proof.Machine
end

