-- ==== Sys2Proof/Laws/Memory.lean ====
section
/-! SUPPORT. The laws of memory: read after write, and that every memory operation keeps the canonical form
(R31, R41, R45). -/

namespace Sys2Proof.Machine

/-- A written byte reads back. -/
@[simp] theorem Memory.get?_set_self (m : Memory) (a : Nat) (b : Byte) : (m.set a b).get? a = some b := by
  induction m with
  | nil => simp [Memory.set, Memory.get?]
  | cons p rest ih =>
    obtain ⟨c, x⟩ := p
    simp only [Memory.set]
    split
    · simp [Memory.get?]
    · split
      · simp [Memory.get?]
      · simp_all [Memory.get?]

/-- A write leaves every other address alone. -/
theorem Memory.get?_set_ne (m : Memory) {a a' : Nat} (b : Byte) (h : a' ≠ a) :
    (m.set a b).get? a' = m.get? a' := by
  induction m with
  | nil => simp [Memory.set, Memory.get?, h]
  | cons p rest ih =>
    obtain ⟨c, x⟩ := p
    simp only [Memory.set]
    split
    · simp [Memory.get?, h]
    · split
      · next he => subst he; simp [Memory.get?, h]
      · simp [Memory.get?, ih]

theorem Memory.risesAbove_set (m : Memory) {lo a : Nat} (b : Byte) (hm : m.risesAbove lo = true) (hlo : lo < a)
    (ha : a < 4294967296) : (m.set a b).risesAbove lo = true := by
  induction m generalizing lo with
  | nil => simp [Memory.set, Memory.risesAbove, hlo, ha]
  | cons p rest ih =>
    obtain ⟨c, x⟩ := p
    simp only [Memory.risesAbove, Bool.and_eq_true, decide_eq_true_eq] at hm
    simp only [Memory.set]
    split
    · simp_all [Memory.risesAbove]
    · split
      · simp_all [Memory.risesAbove]
      · have : c < a := by omega
        simp_all [Memory.risesAbove]

/-- A write to a 32-bit address keeps the canonical form. -/
theorem Memory.wf_set (m : Memory) {a : Nat} (b : Byte) (hm : m.wf = true) (ha : a < 4294967296) :
    (m.set a b).wf = true := by
  cases m with
  | nil => simp [Memory.set, Memory.wf, Memory.risesAbove, ha]
  | cons p rest =>
    obtain ⟨c, x⟩ := p
    simp only [Memory.wf, Bool.and_eq_true, decide_eq_true_eq] at hm
    simp only [Memory.set]
    split
    · simp_all [Memory.wf, Memory.risesAbove]
    · split
      · simp_all [Memory.wf]
      · have : c < a := by omega
        simp_all [Memory.wf, Memory.risesAbove_set rest b hm.2 this ha]

theorem Memory.lt_of_risesAbove {m : Memory} {lo a : Nat} (hm : m.risesAbove lo = true)
    (ha : (m.get? a).isSome = true) : lo < a := by
  induction m generalizing lo with
  | nil => simp [Memory.get?] at ha
  | cons p rest ih =>
    obtain ⟨c, x⟩ := p
    simp only [Memory.risesAbove, Bool.and_eq_true, decide_eq_true_eq] at hm
    simp only [Memory.get?] at ha
    split at ha
    · omega
    · have := ih hm.2 ha; omega

theorem Memory.get?_eq_none_of_risesAbove {m : Memory} {lo a : Nat} (hm : m.risesAbove lo = true) (ha : a ≤ lo) :
    m.get? a = none := by
  by_contra h
  have : (m.get? a).isSome = true := Option.isSome_iff_ne_none.mpr h
  have := Memory.lt_of_risesAbove hm this
  omega

/-- Memories in canonical form that list the same bytes are the same data. -/
theorem Memory.eq_of_risesAbove {m m' : Memory} {lo lo' : Nat} (hm : m.risesAbove lo = true)
    (hm' : m'.risesAbove lo' = true) (h : ∀ a, m.get? a = m'.get? a) : m = m' := by
  induction m generalizing m' lo lo' with
  | nil =>
    cases m' with
    | nil => rfl
    | cons p rest => obtain ⟨c, x⟩ := p; have := h c; simp [Memory.get?] at this
  | cons p rest ih =>
    obtain ⟨c, x⟩ := p
    cases m' with
    | nil => have := h c; simp [Memory.get?] at this
    | cons p' rest' =>
      obtain ⟨c', x'⟩ := p'
      simp only [Memory.risesAbove, Bool.and_eq_true, decide_eq_true_eq] at hm hm'
      have hc : c = c' := by
        have h1 := h c
        have h2 := h c'
        simp only [Memory.get?, if_true] at h1 h2
        rcases Nat.lt_trichotomy c c' with hlt | heq | hgt
        · rw [if_neg (by omega), Memory.get?_eq_none_of_risesAbove hm'.2 (by omega)] at h1
          cases h1
        · exact heq
        · rw [if_neg (by omega), Memory.get?_eq_none_of_risesAbove hm.2 (by omega)] at h2
          cases h2
      subst hc
      have hx : x = x' := by have := h c; simpa [Memory.get?] using this
      subst hx
      have hr : rest = rest' := by
        refine ih hm.2 hm'.2 fun a => ?_
        by_cases ha : a = c
        · subst ha
          rw [Memory.get?_eq_none_of_risesAbove hm.2 (Nat.le_refl a),
            Memory.get?_eq_none_of_risesAbove hm'.2 (Nat.le_refl a)]
        · have := h a; simpa [Memory.get?, ha] using this
      rw [hr]

/-- A listed byte stands in the list. -/
theorem Memory.mem_of_get?_isSome {m : Memory} {a : Nat} (h : (m.get? a).isSome = true) : ∃ b, (a, b) ∈ m := by
  induction m with
  | nil => simp [Memory.get?] at h
  | cons p rest ih =>
    obtain ⟨c, x⟩ := p
    by_cases hc : a = c
    · exact ⟨x, by simp [hc]⟩
    · obtain ⟨b, hb⟩ := ih (by simpa [Memory.get?, hc] using h)
      exact ⟨b, List.mem_cons_of_mem _ hb⟩

theorem byteAddr_lt (a : Word) (i : Nat) : byteAddr a i < 4294967296 := (a + BitVec.ofNat 32 i).isLt

theorem State.storeByte_mem (s : State) (a : Nat) (b : Byte) :
    (s.storeByte a b).mem = if s.isDevice a then s.mem else s.mem.set a b := by
  unfold State.storeByte; split <;> rfl

/-- A byte store keeps the canonical form. -/
theorem State.storeByte_wf (s : State) {a : Nat} (b : Byte) (hm : s.mem.wf = true) (ha : a < 4294967296) :
    (s.storeByte a b).mem.wf = true := by
  rw [State.storeByte_mem]
  split
  · exact hm
  · exact Memory.wf_set _ b hm ha

/-- A store of any width keeps the canonical form. -/
theorem State.storeBytes_wf (s : State) (addr v : Word) (n : Nat) (hm : s.mem.wf = true) :
    (s.storeBytes addr v n).mem.wf = true := by
  induction n with
  | zero => exact hm
  | succ n ih => exact State.storeByte_wf _ _ ih (byteAddr_lt addr n)

/-- Placing a word keeps the canonical form. -/
theorem placeBytes_wf (m : Memory) (addr w : Word) (n : Nat) (hm : m.wf = true) :
    (placeBytes m addr w n).wf = true := by
  induction n with
  | zero => exact hm
  | succ n ih => exact Memory.wf_set _ _ ih (byteAddr_lt addr n)

/-- What a byte holds after a byte store. -/
theorem State.byteAt_storeByte (s : State) (a x : Nat) (b : Byte) :
    (s.storeByte a b).byteAt x = if x = a ∧ s.isDevice a = false then b else s.byteAt x := by
  unfold State.byteAt
  rw [State.storeByte_mem]
  by_cases hd : s.isDevice a = true
  · simp [hd]
  · simp only [hd, Bool.false_eq_true, if_false] at *
    by_cases hx : x = a
    · subst hx; simp
    · simp [hx, Memory.get?_set_ne _ _ hx]

/-- No wrap inside an aligned access (R51): its bytes are the addresses from `addr` up. -/
theorem byteAddr_of_aligned {a : Word} {w : Width} (h : aligned a w = true) {i : Nat} (hi : i < widthBytes w) :
    byteAddr a i = a.toNat + i := by
  have ha := a.isLt
  unfold aligned at h
  unfold byteAddr
  simp only [BitVec.toNat_add, BitVec.toNat_ofNat]
  cases w <;> simp [widthBytes] at h hi <;> omega

/-- The alignment check as a remainder (R43). -/
theorem aligned_iff {a : Word} {w : Width} : aligned a w = true ↔ a.toNat % widthBytes w = 0 := by
  simp [aligned]

/-- The bytes of an aligned access (R44, R51). -/
theorem mem_accessBytes {a : Word} {w : Width} (h : aligned a w = true) {x : Nat} :
    x ∈ accessBytes a w ↔ a.toNat ≤ x ∧ x < a.toNat + widthBytes w := by
  simp only [accessBytes, List.mem_map, List.mem_range]
  constructor
  · rintro ⟨k, hk, rfl⟩
    rw [byteAddr_of_aligned h hk]
    omega
  · rintro ⟨h1, h2⟩
    exact ⟨x - a.toNat, by omega, by rw [byteAddr_of_aligned h (by omega)]; omega⟩

/-- What memory lists after the first `n` bytes of an aligned store (R45): the plain bytes among them, nothing else. -/
theorem State.get?_storeBytes (s : State) {a v : Word} {w : Width} (h : aligned a w = true) (n : Nat)
    (hn : n ≤ widthBytes w) (x : Nat) :
    (s.storeBytes a v n).mem.get? x =
      if a.toNat ≤ x ∧ x < a.toNat + n ∧ s.isDevice x = false then some (leByte v (x - a.toNat))
      else s.mem.get? x := by
  induction n with
  | zero => simp [State.storeBytes]; omega
  | succ n ih =>
    have hd : (s.storeBytes a v n).isDevice = s.isDevice := funext fun y => State.isDevice_congr (by simp) y
    simp only [State.storeBytes, State.storeByte_mem, byteAddr_of_aligned h (show n < widthBytes w by omega), hd]
    by_cases hx : x = a.toNat + n
    · subst hx
      by_cases hdev : s.isDevice (a.toNat + n) = true <;> simp [hdev, ih (by omega)]
    · have hc : (a.toNat ≤ x ∧ x < a.toNat + (n + 1) ∧ s.isDevice x = false) ↔
          (a.toNat ≤ x ∧ x < a.toNat + n ∧ s.isDevice x = false) := by
        constructor <;> rintro ⟨h1, h2, h3⟩ <;> exact ⟨h1, by omega, h3⟩
      simp only [hc]
      split
      · rw [ih (by omega)]
      · rw [Memory.get?_set_ne _ _ hx, ih (by omega)]

/-- What a byte reads as after the first `n` bytes of an aligned store (R45). -/
theorem State.byteAt_storeBytes (s : State) {a v : Word} {w : Width} (h : aligned a w = true) (n : Nat)
    (hn : n ≤ widthBytes w) (x : Nat) :
    (s.storeBytes a v n).byteAt x =
      if a.toNat ≤ x ∧ x < a.toNat + n ∧ s.isDevice x = false then leByte v (x - a.toNat) else s.byteAt x := by
  unfold State.byteAt
  rw [State.get?_storeBytes s h n hn]
  by_cases hc : a.toNat ≤ x ∧ x < a.toNat + n ∧ s.isDevice x = false
  · rw [if_pos hc, if_pos hc]
  · rw [if_neg hc, if_neg hc]

/-- Byte `i` of a word by division (R41). -/
theorem leByte_eq_ofNat (v : Word) (i : Nat) : leByte v i = BitVec.ofNat 8 (v.toNat / 256 ^ i) := by
  apply BitVec.eq_of_toNat_eq
  simp only [leByte, BitVec.extractLsb'_toNat, Nat.shiftRight_eq_div_pow, BitVec.toNat_ofNat]
  rw [show (2 : Nat) ^ (8 * i) = 256 ^ i by rw [pow_mul]; norm_num]

/-- The value a store records by remainder (R47). -/
theorem widthValue_toNat (w : Width) (v : Word) : (widthValue w v).toNat = v.toNat % 256 ^ widthBytes w := by
  have := v.isLt
  cases w <;> simp [widthValue, widthBytes, BitVec.toNat_setWidth] <;> omega

/-- Four bytes make a word, the first lowest (R41, R46). -/
theorem leWord_four (b c d e : Byte) : leWord [b, c, d, e] = e ++ d ++ c ++ b := by
  simp only [leWord]
  apply BitVec.eq_of_getLsbD_eq
  intro k hk
  interval_cases k <;> simp only [BitVec.getLsbD_append] <;> simp

/-- Two bytes make a half, the first lowest (R41). -/
theorem leWord_two (b c : Byte) : (leWord [b, c]).setWidth 16 = c ++ b := by
  simp only [leWord]
  apply BitVec.eq_of_getLsbD_eq
  intro k hk
  interval_cases k <;> simp only [BitVec.getLsbD_append] <;> simp

/-- One byte is itself. -/
theorem leWord_one (b : Byte) : (leWord [b]).setWidth 8 = b := by
  simp only [leWord]
  apply BitVec.eq_of_getLsbD_eq
  intro k hk
  interval_cases k <;> simp

/-- A word's four bytes make it again (R41, R45). -/
theorem leWord_leByte (v : Word) : leWord [leByte v 0, leByte v 1, leByte v 2, leByte v 3] = v := by
  rw [leWord_four]
  apply BitVec.eq_of_getLsbD_eq
  intro k hk
  simp only [leByte]
  interval_cases k <;> simp only [BitVec.getLsbD_append] <;> simp

end Sys2Proof.Machine
end

