-- ==== Sys2Proof/Laws/Ops.lean ====
section
/-! SUPPORT. What each shared operation can do, said once: the reads, the writes, the fetch and the step, which later
proofs cite instead of unfolding them. -/

namespace Sys2Proof.Machine

/-! ### Going on after an operation -/

@[simp] theorem andThen_next {α β : Type} (a : α) (k : α → Result β) : andThen (.next a) k = k a := rfl
@[simp] theorem andThen_fault {α β : Type} (f : Fault) (k : α → Result β) :
    andThen (.fault f) k = .fault f := rfl
@[simp] theorem andThen_refused {α β : Type} (q : Refusal) (k : α → Result β) :
    andThen (.refused q) k = .refused q := rfl

/-- An operation and what follows it answer a value only if both do. -/
theorem andThen_eq_next {α β : Type} {r : Result α} {k : α → Result β} {b : β} (h : andThen r k = .next b) :
    ∃ a, r = .next a ∧ k a = .next b := by
  cases r with
  | next a => exact ⟨a, rfl, h⟩
  | fault f => cases h
  | refused q => cases h

/-- A fault comes from the operation or from what follows it. -/
theorem andThen_eq_fault {α β : Type} {r : Result α} {k : α → Result β} {f : Fault}
    (h : andThen r k = .fault f) : r = .fault f ∨ ∃ a, r = .next a ∧ k a = .fault f := by
  cases r with
  | next a => exact .inr ⟨a, rfl, h⟩
  | fault g => cases h; exact .inl rfl
  | refused q => cases h

/-- So does a refusal. -/
theorem andThen_eq_refused {α β : Type} {r : Result α} {k : α → Result β} {q : Refusal}
    (h : andThen r k = .refused q) : r = .refused q ∨ ∃ a, r = .next a ∧ k a = .refused q := by
  cases r with
  | next a => exact .inr ⟨a, rfl, h⟩
  | fault g => cases h
  | refused q' => cases h; exact .inl rfl

/-! ### Reading bytes -/

/-- Reading bytes only counts the device bytes among them. -/
theorem State.loadBytes_state (s : State) (l : List Nat) :
    (s.loadBytes l).2 = { s with draws := s.draws + (l.filter s.isDevice).length } := by
  induction l generalizing s with
  | nil => rfl
  | cons a rest ih =>
    simp only [State.loadBytes, ih, State.loadByte]
    by_cases hd : s.isDevice a = true
    · have : State.isDevice { s with draws := s.draws + 1 } = s.isDevice :=
        funext fun x => State.isDevice_congr rfl x
      simp [hd, this, State.drawByte, Nat.add_assoc, Nat.add_comm 1]
    · simp [hd]

/-- Reading plain bytes gives what they hold and changes nothing (R44, R49). -/
theorem State.loadBytes_plain (s : State) (l : List Nat) (h : ∀ a ∈ l, s.isDevice a = false) :
    s.loadBytes l = (l.map s.byteAt, s) := by
  induction l with
  | nil => rfl
  | cons a rest ih =>
    have ha := h a (List.mem_cons_self ..)
    have hr := ih fun x hx => h x (List.mem_cons_of_mem _ hx)
    simp [State.loadBytes, State.loadByte, ha, hr]

/-- Fetching bytes only counts the device bytes among them. -/
theorem State.fetchBytes_state (s : State) (l : List Nat) :
    (s.fetchBytes l).2 = { s with draws := s.draws + (l.filter s.isDevice).length } := by
  induction l generalizing s with
  | nil => rfl
  | cons a rest ih =>
    simp only [State.fetchBytes, ih, State.fetchByte]
    by_cases hd : s.isDevice a = true
    · have : State.isDevice { s with draws := s.draws + 1 } = s.isDevice :=
        funext fun x => State.isDevice_congr rfl x
      simp [hd, this, State.drawByte, Nat.add_assoc, Nat.add_comm 1]
    · simp [hd]

/-- Fetching plain bytes gives what the code memory holds and changes nothing (R46). -/
theorem State.fetchBytes_plain (s : State) (l : List Nat) (h : ∀ a ∈ l, s.isDevice a = false) :
    s.fetchBytes l = (l.map s.codeByteAt, s) := by
  induction l with
  | nil => rfl
  | cons a rest ih =>
    have ha := h a (List.mem_cons_self ..)
    have hr := ih fun x hx => h x (List.mem_cons_of_mem _ hx)
    simp [State.fetchBytes, State.fetchByte, ha, hr]

/-! ### The access primitives -/

/-- If `MemRead` answers, the access was aligned and readable, and only draws were counted (R44). -/
theorem memRead_eq_next {s s' : State} {addr v : Word} {w : Width} (h : memRead s addr w = .next (v, s')) :
    aligned addr w = true ∧ (∀ a ∈ accessBytes addr w, s.readable a = true) ∧
      v = leWord (s.loadBytes (accessBytes addr w)).1 ∧
      s' = { s with draws := s.draws + ((accessBytes addr w).filter s.isDevice).length } := by
  unfold memRead raise at h
  split at h
  · cases h
  · split at h
    · cases h
    · next h1 h2 =>
      simp only [Bool.not_eq_true, Bool.not_eq_false', List.all_eq_true] at h1 h2
      simp only [Host.Outcome.next.injEq, Prod.mk.injEq] at h
      exact ⟨h1, h2, h.1.symm, by rw [← h.2, State.loadBytes_state]⟩

/-- `MemRead` of an aligned, readable access of plain memory (R44). -/
theorem memRead_plain {s : State} {addr : Word} {w : Width} (ha : aligned addr w = true)
    (hr : ∀ a ∈ accessBytes addr w, s.readable a = true)
    (hd : ∀ a ∈ accessBytes addr w, s.isDevice a = false) :
    memRead s addr w = .next (leWord ((accessBytes addr w).map s.byteAt), s) := by
  unfold memRead
  have : (accessBytes addr w).all s.readable = true := List.all_eq_true.mpr hr
  simp [ha, this, State.loadBytes_plain s _ hd]

/-- If `MemWrite` answers, the access was aligned and writable, and exactly the store was done (R45). -/
theorem memWrite_eq_next {s s' : State} {addr v : Word} {w : Width} (h : memWrite s addr w v = .next s') :
    aligned addr w = true ∧ (∀ a ∈ accessBytes addr w, s.writable a = true) ∧
      s' = (s.storeBytes addr v (widthBytes w)).recordStore addr w v := by
  unfold memWrite raise at h
  split at h
  · cases h
  · split at h
    · cases h
    · next h1 h2 =>
      simp only [Bool.not_eq_true, Bool.not_eq_false', List.all_eq_true] at h1 h2
      cases h
      exact ⟨h1, h2, rfl⟩

/-- If the fetch answers, the word at `pc` is executable and no stop of R55 holds; only draws were counted. -/
theorem fetch_eq_next {s s' : State} {w : Word} (h : fetch s = .next (w, s')) :
    (∀ a ∈ accessBytes s.pc .word, s.executable a = true) ∧ s.refusedCode = none ∧
      w = leWord (s.fetchBytes (accessBytes s.pc .word)).1 ∧
      s' = { s with draws := s.draws + ((accessBytes s.pc .word).filter s.isDevice).length } := by
  unfold fetch raise at h
  split at h
  · cases h
  · next h1 =>
    simp only [Bool.not_eq_true, Bool.not_eq_false', List.all_eq_true] at h1
    split at h
    · cases h
    · next h2 =>
      simp only [Host.Outcome.next.injEq, Prod.mk.injEq] at h
      exact ⟨h1, h2, h.1.symm, by rw [← h.2, State.fetchBytes_state]⟩

/-- The fetch of a plain executable word (R46). -/
theorem fetch_plain {s : State} (he : ∀ a ∈ accessBytes s.pc .word, s.executable a = true)
    (hd : ∀ a ∈ accessBytes s.pc .word, s.isDevice a = false) (hc : s.refusedCode = none) :
    fetch s = .next (leWord ((accessBytes s.pc .word).map s.codeByteAt), s) := by
  unfold fetch
  have : (accessBytes s.pc .word).all s.executable = true := List.all_eq_true.mpr he
  simp [this, hc, State.fetchBytes_plain s _ hd]

/-! ### The step -/

/-- If the step answers, a word was fetched, it decoded, and its rule answered (R26). -/
theorem step_eq_next {s t : State} (h : step s = .next t) :
    ∃ w s' i, fetch s = .next (w, s') ∧ decode w = .ok i ∧ exec i s' = .next t := by
  obtain ⟨⟨w, s'⟩, hf, hk⟩ := andThen_eq_next h
  obtain ⟨i, hd, he⟩ := andThen_eq_next hk
  refine ⟨w, s', i, hf, ?_, he⟩
  unfold decodeOrRaise raise at hd
  split at hd
  · next hi => cases hd; exact hi
  · cases hd

/-- A fetched word that decodes is executed (R26). -/
theorem step_of_fetch {s s' : State} {w : Word} {i : Instr} (hf : fetch s = .next (w, s'))
    (hd : decode w = .ok i) : step s = exec i s' := by
  simp [step, hf, decodeOrRaise, hd]

end Sys2Proof.Machine
end

