-- ==== Sys2Proof/Laws/Exec.lean ====
section
/-! SUPPORT. The operand forms in integer arithmetic, and what an instruction can do, said once for all 37: the shape of
its meaning, and the state it leaves when it completes. -/

namespace Sys2Proof.Machine

/-! ### Operand forms -/

/-- The sign-extended immediate has the immediate's signed value (R78, R79). -/
theorem immWord_toInt (imm : BitVec 12) : (immWord imm).toInt = imm.toInt :=
  BitVec.toInt_signExtend_of_le (by omega)

/-- The effective address as an integer sum modulo 2^32 (R51). -/
theorem effectiveAddress_eq_ofInt (s : State) (rs1 : Reg) (imm : BitVec 12) :
    effectiveAddress s rs1 imm = BitVec.ofInt 32 ((s.readReg rs1).toNat + imm.toInt) := by
  unfold effectiveAddress
  apply BitVec.eq_of_toInt_eq
  rw [BitVec.toInt_add, immWord_toInt, BitVec.toInt_ofInt, BitVec.toInt_eq_toNat_bmod]
  simp

/-- The branch target as an integer sum modulo 2^32 (R80, R155). -/
theorem branchTarget_eq_ofInt (s : State) (off : BitVec 13) :
    branchTarget s off = BitVec.ofInt 32 (s.pc.toNat + off.toInt) := by
  unfold branchTarget
  apply BitVec.eq_of_toInt_eq
  rw [BitVec.toInt_add, BitVec.toInt_signExtend_of_le (by omega), BitVec.toInt_ofInt, BitVec.toInt_eq_toNat_bmod]
  simp

/-- The target of `jal` as an integer sum modulo 2^32 (R82, R172). -/
theorem jumpTarget_eq_ofInt (s : State) (off : BitVec 21) :
    jumpTarget s off = BitVec.ofInt 32 (s.pc.toNat + off.toInt) := by
  unfold jumpTarget
  apply BitVec.eq_of_toInt_eq
  rw [BitVec.toInt_add, BitVec.toInt_signExtend_of_le (by omega), BitVec.toInt_ofInt, BitVec.toInt_eq_toNat_bmod]
  simp

/-- The shift amount of a register shift (R140 law (e)). -/
theorem shiftAmount_eq_mod (s : State) (rs2 : Reg) : shiftAmount s rs2 = (s.readReg rs2).toNat % 32 := by
  simp [shiftAmount, BitVec.extractLsb'_toNat]

/-- An arithmetic right shift is the floor of the signed quotient (R117, R148). -/
theorem shiftRightArith_toInt (a : Word) (n : Nat) : (shiftRightArith a n).toInt = a.toInt.fdiv (2 ^ n) := by
  unfold shiftRightArith
  rw [BitVec.toInt_sshiftRight, Int.shiftRight_eq_div_pow, Int.fdiv_eq_ediv_of_nonneg _ (by positivity)]
  norm_cast

/-! ### The shared shapes -/

/-- A transfer that completes went to a multiple of 4 (R155, R170). -/
theorem transferTo_eq_next {s t onward : State} {target : Word} (h : transferTo s target onward = .next t) :
    target.toNat % 4 = 0 ∧ t = onward.setPc target := by
  unfold transferTo raise at h
  split at h
  · next h1 => cases h; exact ⟨aligned_iff.mp h1, rfl⟩
  · cases h

/-- What the meaning of every instruction is: one of five shared operations. -/
theorem exec_shape (i : Instr) (s : State) :
    (∃ w, ∃ widen : Word → Word, ∃ rd rs1 imm, kindOf i = .load w ∧ destOf i = some rd ∧
      exec i s = loadInto s w widen rd rs1 imm ∧ exec (toX0 i) s = loadInto s w widen 0 rs1 imm) ∨
    (∃ w rs2 rs1 imm, kindOf i = .store w ∧ destOf i = none ∧ exec i s = storeFrom s w rs2 rs1 imm) ∨
    (∃ rd v, kindOf i = .arithmetic ∧ destOf i = some rd ∧ exec i s = putResult s rd v ∧
      exec (toX0 i) s = putResult s 0 v) ∨
    (∃ cond off, kindOf i = .branch ∧ destOf i = none ∧ exec i s = branchWhen s cond off) ∨
    (∃ rd target, kindOf i = .jump ∧ destOf i = some rd ∧ exec i s = jumpAndLink s rd target ∧
      exec (toX0 i) s = jumpAndLink s 0 target) := by
  cases i with
  | lb | lh | lw | lbu | lhu => exact .inl ⟨_, _, _, _, _, rfl, rfl, rfl, rfl⟩
  | sb | sh | sw => exact .inr (.inl ⟨_, _, _, _, rfl, rfl, rfl⟩)
  | beq | bne | blt | bge | bltu | bgeu => exact .inr (.inr (.inr (.inl ⟨_, _, rfl, rfl, rfl⟩)))
  | jal | jalr => exact .inr (.inr (.inr (.inr ⟨_, _, rfl, rfl, rfl, rfl⟩)))
  | addi | slli | slti | sltiu | xori | srli | srai | ori | andi | auipc | lui
  | add | sub | sll | slt | sltu | xor | srl | sra | or | and =>
    exact .inr (.inr (.inl ⟨_, _, rfl, rfl, rfl, rfl⟩))

/-- The state an instruction leaves when it completes, by kind. -/
theorem exec_eq_next {i : Instr} {s t : State} (h : exec i s = .next t) :
    (∃ w rd v n, kindOf i = .load w ∧ destOf i = some rd ∧
      t = (State.writeReg { s with draws := n } rd v).advance) ∨
    (∃ w addr v, kindOf i = .store w ∧ destOf i = none ∧ aligned addr w = true ∧
      (∀ a ∈ accessBytes addr w, s.writable a = true) ∧
      t = ((s.storeBytes addr v (widthBytes w)).recordStore addr w v).advance) ∨
    (∃ rd v, kindOf i = .arithmetic ∧ destOf i = some rd ∧ t = (s.writeReg rd v).advance) ∨
    (kindOf i = .branch ∧ destOf i = none ∧
      (t = s.advance ∨ ∃ a : Word, a.toNat % 4 = 0 ∧ t = s.setPc a)) ∨
    (∃ rd, kindOf i = .jump ∧ destOf i = some rd ∧
      ∃ a : Word, a.toNat % 4 = 0 ∧ t = (s.writeReg rd (linkValue s)).setPc a) := by
  rcases exec_shape i s with ⟨w, widen, rd, rs1, imm, h1, h2, h3, -⟩ | ⟨w, rs2, rs1, imm, h1, h2, h3⟩ |
    ⟨rd, v, h1, h2, h3, -⟩ | ⟨cond, off, h1, h2, h3⟩ | ⟨rd, target, h1, h2, h3, -⟩ <;> rw [h3] at h
  · obtain ⟨⟨v, s'⟩, hm, hk⟩ := andThen_eq_next h
    obtain ⟨-, -, -, rfl⟩ := memRead_eq_next hm
    cases hk
    exact .inl ⟨_, _, _, _, h1, h2, rfl⟩
  · obtain ⟨s', hm, hk⟩ := andThen_eq_next h
    obtain ⟨ha, hw, rfl⟩ := memWrite_eq_next hm
    cases hk
    exact .inr (.inl ⟨_, _, _, h1, h2, ha, hw, rfl⟩)
  · cases h
    exact .inr (.inr (.inl ⟨_, _, h1, h2, rfl⟩))
  · unfold branchWhen at h
    split at h
    · obtain ⟨ha, rfl⟩ := transferTo_eq_next h
      exact .inr (.inr (.inr (.inl ⟨h1, h2, .inr ⟨_, ha, rfl⟩⟩)))
    · cases h
      exact .inr (.inr (.inr (.inl ⟨h1, h2, .inl rfl⟩)))
  · obtain ⟨ha, rfl⟩ := transferTo_eq_next h
    exact .inr (.inr (.inr (.inr ⟨_, h1, h2, _, ha, rfl⟩)))

end Sys2Proof.Machine
end

