-- ==== Sys2Proof/Laws/PerInstr.lean ====
section
/-! SUPPORT. The family `FitsItsRow` (LAWS.json): an instruction's word, from the formats R71 to R76, has the fixed
bits its row of the opcode table gives it (R84, R85). One lemma per constructor. -/

namespace Sys2Proof.Laws.FitsItsRow

/-- The instruction's word fits the row of its mnemonic. -/
def Statement (i : Instr) : Prop :=
  ∃ row ∈ opcodeTable, row.mnemonic = i.mnemonic ∧ rowFits row (encode i) = true

/-! The bits a mask keeps of each format. -/

theorem encodeI_fixed (imm : BitVec 12) (rs1 : Reg) (f : BitVec 3) (rd : Reg) (op : BitVec 7) :
    encodeI imm rs1 f rd op &&& 0x0000707F#32 = 0#17 ++ f ++ 0#5 ++ op := by
  apply BitVec.eq_of_getLsbD_eq
  intro k hk
  interval_cases k <;> simp only [encodeI, BitVec.getLsbD_and, BitVec.getLsbD_append] <;> simp

theorem encodeR_fixed (g : BitVec 7) (rs2 rs1 : Reg) (f : BitVec 3) (rd : Reg) (op : BitVec 7) :
    encodeR g rs2 rs1 f rd op &&& 0xFE00707F#32 = g ++ 0#10 ++ f ++ 0#5 ++ op := by
  apply BitVec.eq_of_getLsbD_eq
  intro k hk
  interval_cases k <;> simp only [encodeR, BitVec.getLsbD_and, BitVec.getLsbD_append] <;> simp

theorem encodeShift_fixed (g : BitVec 7) (u : BitVec 5) (rs1 : Reg) (f : BitVec 3) (rd : Reg) (op : BitVec 7) :
    encodeShift g u rs1 f rd op &&& 0xFE00707F#32 = g ++ 0#10 ++ f ++ 0#5 ++ op := by
  apply BitVec.eq_of_getLsbD_eq
  intro k hk
  interval_cases k <;> simp only [encodeShift, BitVec.getLsbD_and, BitVec.getLsbD_append] <;> simp

theorem encodeS_fixed (imm : BitVec 12) (rs2 rs1 : Reg) (f : BitVec 3) (op : BitVec 7) :
    encodeS imm rs2 rs1 f op &&& 0x0000707F#32 = 0#17 ++ f ++ 0#5 ++ op := by
  apply BitVec.eq_of_getLsbD_eq
  intro k hk
  interval_cases k <;> simp only [encodeS, BitVec.getLsbD_and, BitVec.getLsbD_append] <;> simp

theorem encodeB_fixed (off : BitVec 13) (rs2 rs1 : Reg) (f : BitVec 3) (op : BitVec 7) :
    encodeB off rs2 rs1 f op &&& 0x0000707F#32 = 0#17 ++ f ++ 0#5 ++ op := by
  apply BitVec.eq_of_getLsbD_eq
  intro k hk
  interval_cases k <;> simp only [encodeB, BitVec.getLsbD_and, BitVec.getLsbD_append] <;> simp

theorem encodeU_fixed (u : BitVec 20) (rd : Reg) (op : BitVec 7) :
    encodeU u rd op &&& 0x0000007F#32 = 0#25 ++ op := by
  apply BitVec.eq_of_getLsbD_eq
  intro k hk
  interval_cases k <;> simp only [encodeU, BitVec.getLsbD_and, BitVec.getLsbD_append] <;> simp

theorem encodeJ_fixed (off : BitVec 21) (rd : Reg) (op : BitVec 7) :
    encodeJ off rd op &&& 0x0000007F#32 = 0#25 ++ op := by
  apply BitVec.eq_of_getLsbD_eq
  intro k hk
  interval_cases k <;> simp only [encodeJ, BitVec.getLsbD_and, BitVec.getLsbD_append] <;> simp

/-- A row of the table with this mnemonic, mask and fixed bits settles the statement. -/
theorem of_row {i : Instr} {m : String} {mask fixed : Word} (hr : ⟨m, mask, fixed⟩ ∈ opcodeTable)
    (hm : m = i.mnemonic) (h : encode i &&& mask = fixed) : Statement i :=
  ⟨_, hr, hm, by simp [rowFits, h]⟩

theorem lb (rd rs1 : Reg) (imm : BitVec 12) : Statement (.lb rd rs1 imm) :=
  of_row (m := "lb") (mask := 0x0000707F#32) (fixed := 0x00000003#32) (by decide) rfl (encodeI_fixed ..)

theorem lh (rd rs1 : Reg) (imm : BitVec 12) : Statement (.lh rd rs1 imm) :=
  of_row (m := "lh") (mask := 0x0000707F#32) (fixed := 0x00001003#32) (by decide) rfl (encodeI_fixed ..)

theorem lw (rd rs1 : Reg) (imm : BitVec 12) : Statement (.lw rd rs1 imm) :=
  of_row (m := "lw") (mask := 0x0000707F#32) (fixed := 0x00002003#32) (by decide) rfl (encodeI_fixed ..)

theorem lbu (rd rs1 : Reg) (imm : BitVec 12) : Statement (.lbu rd rs1 imm) :=
  of_row (m := "lbu") (mask := 0x0000707F#32) (fixed := 0x00004003#32) (by decide) rfl (encodeI_fixed ..)

theorem lhu (rd rs1 : Reg) (imm : BitVec 12) : Statement (.lhu rd rs1 imm) :=
  of_row (m := "lhu") (mask := 0x0000707F#32) (fixed := 0x00005003#32) (by decide) rfl (encodeI_fixed ..)

theorem addi (rd rs1 : Reg) (imm : BitVec 12) : Statement (.addi rd rs1 imm) :=
  of_row (m := "addi") (mask := 0x0000707F#32) (fixed := 0x00000013#32) (by decide) rfl (encodeI_fixed ..)

theorem slli (rd rs1 : Reg) (uimm : BitVec 5) : Statement (.slli rd rs1 uimm) :=
  of_row (m := "slli") (mask := 0xFE00707F#32) (fixed := 0x00001013#32) (by decide) rfl (encodeShift_fixed ..)

theorem slti (rd rs1 : Reg) (imm : BitVec 12) : Statement (.slti rd rs1 imm) :=
  of_row (m := "slti") (mask := 0x0000707F#32) (fixed := 0x00002013#32) (by decide) rfl (encodeI_fixed ..)

theorem sltiu (rd rs1 : Reg) (imm : BitVec 12) : Statement (.sltiu rd rs1 imm) :=
  of_row (m := "sltiu") (mask := 0x0000707F#32) (fixed := 0x00003013#32) (by decide) rfl (encodeI_fixed ..)

theorem xori (rd rs1 : Reg) (imm : BitVec 12) : Statement (.xori rd rs1 imm) :=
  of_row (m := "xori") (mask := 0x0000707F#32) (fixed := 0x00004013#32) (by decide) rfl (encodeI_fixed ..)

theorem srli (rd rs1 : Reg) (uimm : BitVec 5) : Statement (.srli rd rs1 uimm) :=
  of_row (m := "srli") (mask := 0xFE00707F#32) (fixed := 0x00005013#32) (by decide) rfl (encodeShift_fixed ..)

theorem srai (rd rs1 : Reg) (uimm : BitVec 5) : Statement (.srai rd rs1 uimm) :=
  of_row (m := "srai") (mask := 0xFE00707F#32) (fixed := 0x40005013#32) (by decide) rfl (encodeShift_fixed ..)

theorem ori (rd rs1 : Reg) (imm : BitVec 12) : Statement (.ori rd rs1 imm) :=
  of_row (m := "ori") (mask := 0x0000707F#32) (fixed := 0x00006013#32) (by decide) rfl (encodeI_fixed ..)

theorem andi (rd rs1 : Reg) (imm : BitVec 12) : Statement (.andi rd rs1 imm) :=
  of_row (m := "andi") (mask := 0x0000707F#32) (fixed := 0x00007013#32) (by decide) rfl (encodeI_fixed ..)

theorem auipc (rd : Reg) (upimm : BitVec 20) : Statement (.auipc rd upimm) :=
  of_row (m := "auipc") (mask := 0x0000007F#32) (fixed := 0x00000017#32) (by decide) rfl (encodeU_fixed ..)

theorem sb (rs2 rs1 : Reg) (imm : BitVec 12) : Statement (.sb rs2 rs1 imm) :=
  of_row (m := "sb") (mask := 0x0000707F#32) (fixed := 0x00000023#32) (by decide) rfl (encodeS_fixed ..)

theorem sh (rs2 rs1 : Reg) (imm : BitVec 12) : Statement (.sh rs2 rs1 imm) :=
  of_row (m := "sh") (mask := 0x0000707F#32) (fixed := 0x00001023#32) (by decide) rfl (encodeS_fixed ..)

theorem sw (rs2 rs1 : Reg) (imm : BitVec 12) : Statement (.sw rs2 rs1 imm) :=
  of_row (m := "sw") (mask := 0x0000707F#32) (fixed := 0x00002023#32) (by decide) rfl (encodeS_fixed ..)

theorem add (rd rs1 rs2 : Reg) : Statement (.add rd rs1 rs2) :=
  of_row (m := "add") (mask := 0xFE00707F#32) (fixed := 0x00000033#32) (by decide) rfl (encodeR_fixed ..)

theorem sub (rd rs1 rs2 : Reg) : Statement (.sub rd rs1 rs2) :=
  of_row (m := "sub") (mask := 0xFE00707F#32) (fixed := 0x40000033#32) (by decide) rfl (encodeR_fixed ..)

theorem sll (rd rs1 rs2 : Reg) : Statement (.sll rd rs1 rs2) :=
  of_row (m := "sll") (mask := 0xFE00707F#32) (fixed := 0x00001033#32) (by decide) rfl (encodeR_fixed ..)

theorem slt (rd rs1 rs2 : Reg) : Statement (.slt rd rs1 rs2) :=
  of_row (m := "slt") (mask := 0xFE00707F#32) (fixed := 0x00002033#32) (by decide) rfl (encodeR_fixed ..)

theorem sltu (rd rs1 rs2 : Reg) : Statement (.sltu rd rs1 rs2) :=
  of_row (m := "sltu") (mask := 0xFE00707F#32) (fixed := 0x00003033#32) (by decide) rfl (encodeR_fixed ..)

theorem xor (rd rs1 rs2 : Reg) : Statement (.xor rd rs1 rs2) :=
  of_row (m := "xor") (mask := 0xFE00707F#32) (fixed := 0x00004033#32) (by decide) rfl (encodeR_fixed ..)

theorem srl (rd rs1 rs2 : Reg) : Statement (.srl rd rs1 rs2) :=
  of_row (m := "srl") (mask := 0xFE00707F#32) (fixed := 0x00005033#32) (by decide) rfl (encodeR_fixed ..)

theorem sra (rd rs1 rs2 : Reg) : Statement (.sra rd rs1 rs2) :=
  of_row (m := "sra") (mask := 0xFE00707F#32) (fixed := 0x40005033#32) (by decide) rfl (encodeR_fixed ..)

theorem or (rd rs1 rs2 : Reg) : Statement (.or rd rs1 rs2) :=
  of_row (m := "or") (mask := 0xFE00707F#32) (fixed := 0x00006033#32) (by decide) rfl (encodeR_fixed ..)

theorem and (rd rs1 rs2 : Reg) : Statement (.and rd rs1 rs2) :=
  of_row (m := "and") (mask := 0xFE00707F#32) (fixed := 0x00007033#32) (by decide) rfl (encodeR_fixed ..)

theorem lui (rd : Reg) (upimm : BitVec 20) : Statement (.lui rd upimm) :=
  of_row (m := "lui") (mask := 0x0000007F#32) (fixed := 0x00000037#32) (by decide) rfl (encodeU_fixed ..)

theorem beq (rs1 rs2 : Reg) (off : BitVec 13) : Statement (.beq rs1 rs2 off) :=
  of_row (m := "beq") (mask := 0x0000707F#32) (fixed := 0x00000063#32) (by decide) rfl (encodeB_fixed ..)

theorem bne (rs1 rs2 : Reg) (off : BitVec 13) : Statement (.bne rs1 rs2 off) :=
  of_row (m := "bne") (mask := 0x0000707F#32) (fixed := 0x00001063#32) (by decide) rfl (encodeB_fixed ..)

theorem blt (rs1 rs2 : Reg) (off : BitVec 13) : Statement (.blt rs1 rs2 off) :=
  of_row (m := "blt") (mask := 0x0000707F#32) (fixed := 0x00004063#32) (by decide) rfl (encodeB_fixed ..)

theorem bge (rs1 rs2 : Reg) (off : BitVec 13) : Statement (.bge rs1 rs2 off) :=
  of_row (m := "bge") (mask := 0x0000707F#32) (fixed := 0x00005063#32) (by decide) rfl (encodeB_fixed ..)

theorem bltu (rs1 rs2 : Reg) (off : BitVec 13) : Statement (.bltu rs1 rs2 off) :=
  of_row (m := "bltu") (mask := 0x0000707F#32) (fixed := 0x00006063#32) (by decide) rfl (encodeB_fixed ..)

theorem bgeu (rs1 rs2 : Reg) (off : BitVec 13) : Statement (.bgeu rs1 rs2 off) :=
  of_row (m := "bgeu") (mask := 0x0000707F#32) (fixed := 0x00007063#32) (by decide) rfl (encodeB_fixed ..)

theorem jalr (rd rs1 : Reg) (imm : BitVec 12) : Statement (.jalr rd rs1 imm) :=
  of_row (m := "jalr") (mask := 0x0000707F#32) (fixed := 0x00000067#32) (by decide) rfl (encodeI_fixed ..)

theorem jal (rd : Reg) (off : BitVec 21) : Statement (.jal rd off) :=
  of_row (m := "jal") (mask := 0x0000007F#32) (fixed := 0x0000006F#32) (by decide) rfl (encodeJ_fixed ..)

end Sys2Proof.Laws.FitsItsRow
end

