-- ==== Sys2Proof/Tests/Slice0.lean ====
section
/-! SUPPORT. The model's own tests: well-formedness, decoding of every constructor's word, one or two steps of every
instruction with the values `95_test_vectors.md` gives, the fetch and the host's functions, and for every statement with
hypotheses a state and operands that meet them. -/

namespace Sys2Proof.Tests

open Sys2Proof.Config Sys2Proof.Machine

/-! ### Small states -/

/-- The reset machine with `pc`, some registers and some bytes of memory set. -/
def machine (pc : Word) (regs : List (Reg × Word)) (mem : Memory) : State :=
  regs.foldl (fun s p => s.writeReg p.1 p.2) { State.reset with pc := pc, mem := mem }

/-- The same machine over another memory map and fetch setting. -/
def mapped (map : List Region) (f : FetchSeesStores) (s : State) : State :=
  { s with params := { s.params with memMap := map, fetchSeesStores := f } }

/-- Plain bytes with every permission. -/
def plain (base size : Nat) : Region := ⟨base, size, true, true, true, false⟩

/-- One step, with this word at `pc`. -/
def runs (w : Nat) (s : State) : Result State := step (s.withFetchWord 32 w)

/-- The outcome is a next state with this property. -/
def leaves (o : Result State) (p : State → Bool) : Bool :=
  match o with
  | .next t => p t
  | .fault _ => false
  | .refused _ => false

/-- The outcome is this fault. -/
def faultsWith (o : Result State) (f : Fault) : Bool :=
  match o with
  | .next _ => false
  | .fault g => g == f
  | .refused _ => false

/-- The outcome is this refusal. -/
def refusedWith (o : Result State) (q : Refusal) : Bool :=
  match o with
  | .next _ => false
  | .fault _ => false
  | .refused r => r == q

/-- The word whose four bytes memory holds at an address. -/
def wordAt (s : State) (a : Nat) : Word :=
  leWord [s.byteAt a, s.byteAt (a + 1), s.byteAt (a + 2), s.byteAt (a + 3)]

/-- The memory of `95_test_vectors.md` 2.1. -/
def loadBytes : Memory :=
  [(0x2000, 0x80#8), (0x2001, 0x7F#8), (0x2002, 0xFE#8), (0x2003, 0xFF#8),
   (0x2004, 0x01#8), (0x2005, 0x02#8), (0x2006, 0x03#8), (0x2007, 0x84#8),
   (0xFFFFFFFC, 0x11#8), (0xFFFFFFFD, 0x22#8), (0xFFFFFFFE, 0x33#8), (0xFFFFFFFF, 0x44#8)]

/-- The memory of `95_test_vectors.md` 2.4. -/
def stored : Memory :=
  [(0x2000, 0xDD#8), (0x2001, 0xCC#8), (0x2002, 0xBB#8), (0x2003, 0xAA#8),
   (0x2004, 0xDD#8), (0x2005, 0xCC#8), (0x2006, 0xBB#8), (0x2007, 0xAA#8)]

/-! ### Well-formedness (R80, R82, R97) -/

theorem test_wf_refuses_odd_beq : (Instr.beq 1 2 1).wf = false := by decide
theorem test_wf_refuses_odd_bne : (Instr.bne 1 2 (-1)).wf = false := by decide
theorem test_wf_refuses_odd_blt : (Instr.blt 1 2 4095).wf = false := by decide
theorem test_wf_refuses_odd_bge : (Instr.bge 1 2 3).wf = false := by decide
theorem test_wf_refuses_odd_bltu : (Instr.bltu 1 2 5).wf = false := by decide
theorem test_wf_refuses_odd_bgeu : (Instr.bgeu 1 2 7).wf = false := by decide
theorem test_wf_refuses_odd_jal : (Instr.jal 1 1048575).wf = false := by decide
theorem test_wf_takes_even_offsets :
    (Instr.beq 1 2 4094).wf && (Instr.bgeu 1 2 (-4096)).wf && (Instr.jal 1 (-1048576)).wf = true := by decide

/-! ### Decoding: the words of `95_test_vectors.md` 4.1, written out field by field as R71 to R76 lay them out -/

theorem test_decode_lb :
    decode (0b101001011010#12 ++ 0b01011#5 ++ 0b000#3 ++ 0b01011#5 ++ 0b0000011#7) =
      .ok (.lb 11 11 (-1446)) := by decide
theorem test_decode_lh :
    decode (0b101001011010#12 ++ 0b01011#5 ++ 0b001#3 ++ 0b01011#5 ++ 0b0000011#7) =
      .ok (.lh 11 11 (-1446)) := by decide
theorem test_decode_lw :
    decode (0b101001011010#12 ++ 0b01011#5 ++ 0b010#3 ++ 0b01011#5 ++ 0b0000011#7) =
      .ok (.lw 11 11 (-1446)) := by decide
theorem test_decode_lbu :
    decode (0b101001011010#12 ++ 0b01011#5 ++ 0b100#3 ++ 0b01011#5 ++ 0b0000011#7) =
      .ok (.lbu 11 11 (-1446)) := by decide
theorem test_decode_lhu :
    decode (0b101001011010#12 ++ 0b01011#5 ++ 0b101#3 ++ 0b01011#5 ++ 0b0000011#7) =
      .ok (.lhu 11 11 (-1446)) := by decide
theorem test_decode_addi :
    decode (0b101001011010#12 ++ 0b01011#5 ++ 0b000#3 ++ 0b01011#5 ++ 0b0010011#7) =
      .ok (.addi 11 11 (-1446)) := by decide
theorem test_decode_slli :
    decode (0b0000000#7 ++ 0b11010#5 ++ 0b01011#5 ++ 0b001#3 ++ 0b01011#5 ++ 0b0010011#7) =
      .ok (.slli 11 11 26) := by decide
theorem test_decode_slti :
    decode (0b101001011010#12 ++ 0b01011#5 ++ 0b010#3 ++ 0b01011#5 ++ 0b0010011#7) =
      .ok (.slti 11 11 (-1446)) := by decide
theorem test_decode_sltiu :
    decode (0b101001011010#12 ++ 0b01011#5 ++ 0b011#3 ++ 0b01011#5 ++ 0b0010011#7) =
      .ok (.sltiu 11 11 (-1446)) := by decide
theorem test_decode_xori :
    decode (0b101001011010#12 ++ 0b01011#5 ++ 0b100#3 ++ 0b01011#5 ++ 0b0010011#7) =
      .ok (.xori 11 11 (-1446)) := by decide
theorem test_decode_srli :
    decode (0b0000000#7 ++ 0b11010#5 ++ 0b01011#5 ++ 0b101#3 ++ 0b01011#5 ++ 0b0010011#7) =
      .ok (.srli 11 11 26) := by decide
theorem test_decode_srai :
    decode (0b0100000#7 ++ 0b11010#5 ++ 0b01011#5 ++ 0b101#3 ++ 0b01011#5 ++ 0b0010011#7) =
      .ok (.srai 11 11 26) := by decide
theorem test_decode_ori :
    decode (0b101001011010#12 ++ 0b01011#5 ++ 0b110#3 ++ 0b01011#5 ++ 0b0010011#7) =
      .ok (.ori 11 11 (-1446)) := by decide
theorem test_decode_andi :
    decode (0b101001011010#12 ++ 0b01011#5 ++ 0b111#3 ++ 0b01011#5 ++ 0b0010011#7) =
      .ok (.andi 11 11 (-1446)) := by decide
theorem test_decode_auipc :
    decode (0b10100101101001011010#20 ++ 0b01011#5 ++ 0b0010111#7) =
      .ok (.auipc 11 0xA5A5A) := by decide
theorem test_decode_sb :
    decode (0b1010010#7 ++ 0b11010#5 ++ 0b01011#5 ++ 0b000#3 ++ 0b01011#5 ++ 0b0100011#7) =
      .ok (.sb 26 11 (-1461)) := by decide
theorem test_decode_sh :
    decode (0b1010010#7 ++ 0b11010#5 ++ 0b01011#5 ++ 0b001#3 ++ 0b01011#5 ++ 0b0100011#7) =
      .ok (.sh 26 11 (-1461)) := by decide
theorem test_decode_sw :
    decode (0b1010010#7 ++ 0b11010#5 ++ 0b01011#5 ++ 0b010#3 ++ 0b01011#5 ++ 0b0100011#7) =
      .ok (.sw 26 11 (-1461)) := by decide
theorem test_decode_add :
    decode (0b0000000#7 ++ 0b11010#5 ++ 0b01011#5 ++ 0b000#3 ++ 0b01011#5 ++ 0b0110011#7) =
      .ok (.add 11 11 26) := by decide
theorem test_decode_sub :
    decode (0b0100000#7 ++ 0b11010#5 ++ 0b01011#5 ++ 0b000#3 ++ 0b01011#5 ++ 0b0110011#7) =
      .ok (.sub 11 11 26) := by decide
theorem test_decode_sll :
    decode (0b0000000#7 ++ 0b11010#5 ++ 0b01011#5 ++ 0b001#3 ++ 0b01011#5 ++ 0b0110011#7) =
      .ok (.sll 11 11 26) := by decide
theorem test_decode_slt :
    decode (0b0000000#7 ++ 0b11010#5 ++ 0b01011#5 ++ 0b010#3 ++ 0b01011#5 ++ 0b0110011#7) =
      .ok (.slt 11 11 26) := by decide
theorem test_decode_sltu :
    decode (0b0000000#7 ++ 0b11010#5 ++ 0b01011#5 ++ 0b011#3 ++ 0b01011#5 ++ 0b0110011#7) =
      .ok (.sltu 11 11 26) := by decide
theorem test_decode_xor :
    decode (0b0000000#7 ++ 0b11010#5 ++ 0b01011#5 ++ 0b100#3 ++ 0b01011#5 ++ 0b0110011#7) =
      .ok (.xor 11 11 26) := by decide
theorem test_decode_srl :
    decode (0b0000000#7 ++ 0b11010#5 ++ 0b01011#5 ++ 0b101#3 ++ 0b01011#5 ++ 0b0110011#7) =
      .ok (.srl 11 11 26) := by decide
theorem test_decode_sra :
    decode (0b0100000#7 ++ 0b11010#5 ++ 0b01011#5 ++ 0b101#3 ++ 0b01011#5 ++ 0b0110011#7) =
      .ok (.sra 11 11 26) := by decide
theorem test_decode_or :
    decode (0b0000000#7 ++ 0b11010#5 ++ 0b01011#5 ++ 0b110#3 ++ 0b01011#5 ++ 0b0110011#7) =
      .ok (.or 11 11 26) := by decide
theorem test_decode_and :
    decode (0b0000000#7 ++ 0b11010#5 ++ 0b01011#5 ++ 0b111#3 ++ 0b01011#5 ++ 0b0110011#7) =
      .ok (.and 11 11 26) := by decide
theorem test_decode_lui :
    decode (0b10100101101001011010#20 ++ 0b01011#5 ++ 0b0110111#7) =
      .ok (.lui 11 0xA5A5A) := by decide
theorem test_decode_beq :
    decode (0b1#1 ++ 0b010010#6 ++ 0b11010#5 ++ 0b01011#5 ++ 0b000#3 ++ 0b0101#4 ++ 0b1#1 ++ 0b1100011#7) =
      .ok (.beq 11 26 (-1462)) := by decide
theorem test_decode_bne :
    decode (0b1#1 ++ 0b010010#6 ++ 0b11010#5 ++ 0b01011#5 ++ 0b001#3 ++ 0b0101#4 ++ 0b1#1 ++ 0b1100011#7) =
      .ok (.bne 11 26 (-1462)) := by decide
theorem test_decode_blt :
    decode (0b1#1 ++ 0b010010#6 ++ 0b11010#5 ++ 0b01011#5 ++ 0b100#3 ++ 0b0101#4 ++ 0b1#1 ++ 0b1100011#7) =
      .ok (.blt 11 26 (-1462)) := by decide
theorem test_decode_bge :
    decode (0b1#1 ++ 0b010010#6 ++ 0b11010#5 ++ 0b01011#5 ++ 0b101#3 ++ 0b0101#4 ++ 0b1#1 ++ 0b1100011#7) =
      .ok (.bge 11 26 (-1462)) := by decide
theorem test_decode_bltu :
    decode (0b1#1 ++ 0b010010#6 ++ 0b11010#5 ++ 0b01011#5 ++ 0b110#3 ++ 0b0101#4 ++ 0b1#1 ++ 0b1100011#7) =
      .ok (.bltu 11 26 (-1462)) := by decide
theorem test_decode_bgeu :
    decode (0b1#1 ++ 0b010010#6 ++ 0b11010#5 ++ 0b01011#5 ++ 0b111#3 ++ 0b0101#4 ++ 0b1#1 ++ 0b1100011#7) =
      .ok (.bgeu 11 26 (-1462)) := by decide
theorem test_decode_jalr :
    decode (0b101001011010#12 ++ 0b01011#5 ++ 0b000#3 ++ 0b01011#5 ++ 0b1100111#7) =
      .ok (.jalr 11 11 (-1446)) := by decide
theorem test_decode_jal :
    decode (0b1#1 ++ 0b0100101101#10 ++ 0b0#1 ++ 0b01011010#8 ++ 0b01011#5 ++ 0b1101111#7) =
      .ok (.jal 11 (-679334)) := by decide

/-! The groups of immediate bits one at a time, `95_test_vectors.md` 4.2. -/

theorem test_decode_branch_offset_bits :
    decode 0x7E628FE3#32 = .ok (.beq 5 6 4094) ∧ decode 0x80628063#32 = .ok (.beq 5 6 (-4096)) ∧
    decode 0x006280E3#32 = .ok (.beq 5 6 2048) ∧ decode 0x7E628063#32 = .ok (.beq 5 6 2016) ∧
    decode 0x00628F63#32 = .ok (.beq 5 6 30) := by decide
theorem test_decode_jump_offset_bits :
    decode 0x7FFFF0EF#32 = .ok (.jal 1 1048574) ∧ decode 0x800000EF#32 = .ok (.jal 1 (-1048576)) ∧
    decode 0x001000EF#32 = .ok (.jal 1 2048) ∧ decode 0x000FF0EF#32 = .ok (.jal 1 1044480) ∧
    decode 0x7FE000EF#32 = .ok (.jal 1 2046) := by decide
theorem test_decode_store_offset_bits :
    decode 0x00532FA3#32 = .ok (.sw 5 6 31) ∧ decode 0x02532023#32 = .ok (.sw 5 6 32) ∧
    decode 0x80532023#32 = .ok (.sw 5 6 (-2048)) := by decide

/-- Words of `95_test_vectors.md` 4.3. -/
def illegalWords : List Word :=
  [0x00000000#32, 0xFFFFFFFF#32, 0x00000073#32, 0x00100073#32, 0x30200073#32, 0x10500073#32, 0x34002573#32,
   0x0000000F#32, 0x0000100F#32, 0x02000033#32, 0x40001033#32, 0x40002033#32, 0x20000033#32, 0x80000033#32,
   0x00003003#32, 0x00006003#32, 0x00007003#32, 0x00003023#32, 0x00004023#32, 0x00002063#32, 0x00003063#32,
   0x00001067#32, 0x40001013#32, 0x02001013#32, 0x20005013#32, 0x00000001#32, 0x00000002#32, 0x0000001B#32,
   0x0000003B#32, 0x00002007#32, 0x00002027#32, 0x00000043#32, 0x00000053#32, 0x0000202F#32]

theorem test_illegal_words_are_no_instruction : (illegalWords.all fun w => !(decode w).isOk) = true := by decide
theorem test_illegal_words_fault :
    (illegalWords.all fun w => faultsWith (runs w.toNat (machine 0x00001000#32 [] []))
      (.illegalInstruction 0x00001000#32 w)) = true := by decide
theorem test_decode_errors_by_name :
    decode 0x00000073#32 = .error (.unknownOp 0x00000073#32) ∧
    decode 0x00001067#32 = .error (.unknownFunct 0x00001067#32) ∧
    decodeBytes [0x93#8, 0x83#8, 0x71#8] = .error .truncated := by decide
theorem test_decode_bytes_little_endian :
    decodeBytes [0x93#8, 0x83#8, 0x71#8, 0xFF#8, 0x01#8] = .ok (.addi 7 3 (-9), [0x01#8]) := by decide

/-- Every row of the opcode table with its operand bits zero decodes to its own instruction (R85). -/
theorem test_table_rows_decode :
    (opcodeTable.all fun r =>
      (decodeTableWord 32 r.fixed.toNat).map Instr.mnemonic == some r.mnemonic) = true := by decide

/-! ### One step of each instruction, on the values of `95_test_vectors.md` 2.1 to 2.7 -/

theorem test_lb_sign : leaves (runs 0x00330283 (machine 0x00001000#32 [(6, 0x00002000#32)] loadBytes))
    (fun t => t.readReg 5 == 0xFFFFFFFF#32 && t.pc == 0x00001004#32) = true := by decide
theorem test_lb_negative_offset : leaves (runs 0xFFF30283 (machine 0x00001000#32 [(6, 0x00002008#32)] loadBytes))
    (fun t => t.readReg 5 == 0xFFFFFF84#32 && t.pc == 0x00001004#32) = true := by decide
theorem test_lh_sign : leaves (runs 0x00631283 (machine 0x00001000#32 [(6, 0x00002000#32)] loadBytes))
    (fun t => t.readReg 5 == 0xFFFF8403#32 && t.pc == 0x00001004#32) = true := by decide
theorem test_lh_odd : faultsWith (runs 0x00131283 (machine 0x00001000#32 [(6, 0x00002000#32)] loadBytes))
    (.loadAddressMisaligned 0x00001000#32 0x00002001#32) = true := by decide
theorem test_lw_address_wraps : leaves (runs 0xFF832283 (machine 0x00001000#32 [(6, 0x00000004#32)] loadBytes))
    (fun t => t.readReg 5 == 0x44332211#32 && t.pc == 0x00001004#32) = true := by decide
theorem test_lw_rd_is_rs1 : leaves (runs 0x00032303 (machine 0x00001000#32 [(6, 0x00002004#32)] loadBytes))
    (fun t => t.readReg 6 == 0x84030201#32 && t.pc == 0x00001004#32) = true := by decide
theorem test_lbu_zero_extends : leaves (runs 0x00334283 (machine 0x00001000#32 [(6, 0x00002000#32)] loadBytes))
    (fun t => t.readReg 5 == 0x000000FF#32 && t.pc == 0x00001004#32) = true := by decide
theorem test_lbu_high_byte : leaves (runs 0x00734283 (machine 0x00001000#32 [(6, 0x00002000#32)] loadBytes))
    (fun t => t.readReg 5 == 0x00000084#32 && t.pc == 0x00001004#32) = true := by decide
theorem test_lhu_zero_extends : leaves (runs 0x00635283 (machine 0x00001000#32 [(6, 0x00002000#32)] loadBytes))
    (fun t => t.readReg 5 == 0x00008403#32 && t.pc == 0x00001004#32) = true := by decide
theorem test_lhu_odd : faultsWith (runs 0x00335283 (machine 0x00001000#32 [(6, 0x00002000#32)] loadBytes))
    (.loadAddressMisaligned 0x00001000#32 0x00002003#32) = true := by decide
theorem test_addi_wraps : leaves (runs 0x00130293 (machine 0x00001000#32 [(6, 0x7FFFFFFF#32)] []))
    (fun t => t.readReg 5 == 0x80000000#32 && t.pc == 0x00001004#32) = true := by decide
theorem test_addi_bit30_is_immediate : leaves (runs 0x40030293 (machine 0x00001000#32 [(6, 0x00000100#32)] []))
    (fun t => t.readReg 5 == 0x00000500#32 && t.pc == 0x00001004#32) = true := by decide
theorem test_slli_four : leaves (runs 0x00431293 (machine 0x00001000#32 [(6, 0x12345678#32)] []))
    (fun t => t.readReg 5 == 0x23456780#32 && t.pc == 0x00001004#32) = true := by decide
theorem test_slli_most : leaves (runs 0x01F31293 (machine 0x00001000#32 [(6, 0xFFFFFFFF#32)] []))
    (fun t => t.readReg 5 == 0x80000000#32 && t.pc == 0x00001004#32) = true := by decide
theorem test_slti_signed : leaves (runs 0x80032293 (machine 0x00001000#32 [(6, 0x80000000#32)] []))
    (fun t => t.readReg 5 == 0x00000001#32 && t.pc == 0x00001004#32) = true := by decide
theorem test_slti_not_less : leaves (runs 0x7FF32293 (machine 0x00001000#32 [(6, 0x7FFFFFFF#32)] []))
    (fun t => t.readReg 5 == 0x00000000#32 && t.pc == 0x00001004#32) = true := by decide
theorem test_sltiu_extends_then_unsigned : leaves (runs 0xFFF33293 (machine 0x00001000#32 [(6, 0x00000005#32)] []))
    (fun t => t.readReg 5 == 0x00000001#32 && t.pc == 0x00001004#32) = true := by decide
theorem test_sltiu_high : leaves (runs 0x80033293 (machine 0x00001000#32 [(6, 0xFFFFF7FF#32)] []))
    (fun t => t.readReg 5 == 0x00000001#32 && t.pc == 0x00001004#32) = true := by decide
theorem test_xori_not : leaves (runs 0xFFF34293 (machine 0x00001000#32 [(6, 0x0F0F0F0F#32)] []))
    (fun t => t.readReg 5 == 0xF0F0F0F0#32 && t.pc == 0x00001004#32) = true := by decide
theorem test_xori_low : leaves (runs 0x7FF34293 (machine 0x00001000#32 [(6, 0x12345678#32)] []))
    (fun t => t.readReg 5 == 0x12345187#32 && t.pc == 0x00001004#32) = true := by decide
theorem test_srli_zeros_enter : leaves (runs 0x00435293 (machine 0x00001000#32 [(6, 0x87654321#32)] []))
    (fun t => t.readReg 5 == 0x08765432#32 && t.pc == 0x00001004#32) = true := by decide
theorem test_srli_most : leaves (runs 0x01F35293 (machine 0x00001000#32 [(6, 0x80000000#32)] []))
    (fun t => t.readReg 5 == 0x00000001#32 && t.pc == 0x00001004#32) = true := by decide
theorem test_srai_sign_enters : leaves (runs 0x40435293 (machine 0x00001000#32 [(6, 0x87654321#32)] []))
    (fun t => t.readReg 5 == 0xF8765432#32 && t.pc == 0x00001004#32) = true := by decide
theorem test_srai_floors : leaves (runs 0x40135293 (machine 0x00001000#32 [(6, 0xFFFFFF85#32)] []))
    (fun t => t.readReg 5 == 0xFFFFFFC2#32 && t.pc == 0x00001004#32) = true := by decide
theorem test_ori_low : leaves (runs 0x00F36293 (machine 0x00001000#32 [(6, 0x12345678#32)] []))
    (fun t => t.readReg 5 == 0x1234567F#32 && t.pc == 0x00001004#32) = true := by decide
theorem test_ori_extends : leaves (runs 0x80036293 (machine 0x00001000#32 [(6, 0x00000000#32)] []))
    (fun t => t.readReg 5 == 0xFFFFF800#32 && t.pc == 0x00001004#32) = true := by decide
theorem test_andi_low : leaves (runs 0x0FF37293 (machine 0x00001000#32 [(6, 0x12345678#32)] []))
    (fun t => t.readReg 5 == 0x00000078#32 && t.pc == 0x00001004#32) = true := by decide
theorem test_andi_extends : leaves (runs 0xF0037293 (machine 0x00001000#32 [(6, 0x12345678#32)] []))
    (fun t => t.readReg 5 == 0x12345600#32 && t.pc == 0x00001004#32) = true := by decide
theorem test_auipc_adds_pc : leaves (runs 0x12345297 (machine 0x00001000#32 [] []))
    (fun t => t.readReg 5 == 0x12346000#32 && t.pc == 0x00001004#32) = true := by decide
theorem test_auipc_wraps : leaves (runs 0x00001297 (machine 0xFFFFF000#32 [] []))
    (fun t => t.readReg 5 == 0x00000000#32 && t.pc == 0xFFFFF004#32) = true := by decide
theorem test_sb_second_byte : leaves (runs 0x006380A3 (machine 0x00001000#32 [(6, 0x12345678#32), (7, 0x00002000#32)] stored))
    (fun t => wordAt t 0x00002000 == 0xAABB78DD#32 && t.pc == 0x00001004#32) = true := by decide
theorem test_sb_negative_offset : leaves (runs 0xFE638FA3 (machine 0x00001000#32 [(6, 0x12345678#32), (7, 0x00002008#32)] stored))
    (fun t => wordAt t 0x00002004 == 0x78BBCCDD#32 && t.pc == 0x00001004#32) = true := by decide
theorem test_sh_high_half : leaves (runs 0x00639123 (machine 0x00001000#32 [(6, 0x12345678#32), (7, 0x00002000#32)] stored))
    (fun t => wordAt t 0x00002000 == 0x5678CCDD#32 && t.pc == 0x00001004#32) = true := by decide
theorem test_sh_odd : faultsWith (runs 0x006391A3 (machine 0x00001000#32 [(6, 0x12345678#32), (7, 0x00002000#32)] stored))
    (.storeAddressMisaligned 0x00001000#32 0x00002003#32) = true := by decide
theorem test_sw_large_offset : leaves (runs 0x7E63AE23 (machine 0x00001000#32 [(6, 0x12345678#32), (7, 0x00001808#32)] stored))
    (fun t => wordAt t 0x00002004 == 0x12345678#32 && t.pc == 0x00001004#32) = true := by decide
theorem test_sw_half_aligned : faultsWith (runs 0x0063A123 (machine 0x00001000#32 [(6, 0x12345678#32), (7, 0x00002000#32)] stored))
    (.storeAddressMisaligned 0x00001000#32 0x00002002#32) = true := by decide
theorem test_add_wraps : leaves (runs 0x007302B3 (machine 0x00001000#32 [(6, 0xFFFFFFFF#32), (7, 0x00000001#32)] []))
    (fun t => t.readReg 5 == 0x00000000#32 && t.pc == 0x00001004#32) = true := by decide
theorem test_add_one_register : leaves (runs 0x00630333 (machine 0x00001000#32 [(6, 0x40000001#32)] []))
    (fun t => t.readReg 6 == 0x80000002#32 && t.pc == 0x00001004#32) = true := by decide
theorem test_sub_borrows : leaves (runs 0x407302B3 (machine 0x00001000#32 [(6, 0x00000005#32), (7, 0x0000000C#32)] []))
    (fun t => t.readReg 5 == 0xFFFFFFF9#32 && t.pc == 0x00001004#32) = true := by decide
theorem test_sub_most_negative : leaves (runs 0x407302B3 (machine 0x00001000#32 [(6, 0x00000000#32), (7, 0x80000000#32)] []))
    (fun t => t.readReg 5 == 0x80000000#32 && t.pc == 0x00001004#32) = true := by decide
theorem test_sll_amount_mod_32 : leaves (runs 0x007312B3 (machine 0x00001000#32 [(6, 0x00000001#32), (7, 0x00000023#32)] []))
    (fun t => t.readReg 5 == 0x00000008#32 && t.pc == 0x00001004#32) = true := by decide
theorem test_sll_eight : leaves (runs 0x007312B3 (machine 0x00001000#32 [(6, 0x12345678#32), (7, 0x00000008#32)] []))
    (fun t => t.readReg 5 == 0x34567800#32 && t.pc == 0x00001004#32) = true := by decide
theorem test_slt_signed : leaves (runs 0x007322B3 (machine 0x00001000#32 [(6, 0x80000000#32), (7, 0x7FFFFFFF#32)] []))
    (fun t => t.readReg 5 == 0x00000001#32 && t.pc == 0x00001004#32) = true := by decide
theorem test_slt_negative_is_less : leaves (runs 0x007322B3 (machine 0x00001000#32 [(6, 0x00000000#32), (7, 0xFFFFFFFF#32)] []))
    (fun t => t.readReg 5 == 0x00000000#32 && t.pc == 0x00001004#32) = true := by decide
theorem test_sltu_unsigned : leaves (runs 0x007332B3 (machine 0x00001000#32 [(6, 0x80000000#32), (7, 0x7FFFFFFF#32)] []))
    (fun t => t.readReg 5 == 0x00000000#32 && t.pc == 0x00001004#32) = true := by decide
theorem test_sltu_largest : leaves (runs 0x007332B3 (machine 0x00001000#32 [(6, 0x00000000#32), (7, 0xFFFFFFFF#32)] []))
    (fun t => t.readReg 5 == 0x00000001#32 && t.pc == 0x00001004#32) = true := by decide
theorem test_xor_bits : leaves (runs 0x007342B3 (machine 0x00001000#32 [(6, 0xFF00FF00#32), (7, 0x0FF00FF0#32)] []))
    (fun t => t.readReg 5 == 0xF0F0F0F0#32 && t.pc == 0x00001004#32) = true := by decide
theorem test_srl_amount_mod_32 : leaves (runs 0x007352B3 (machine 0x00001000#32 [(6, 0x80000000#32), (7, 0x00000020#32)] []))
    (fun t => t.readReg 5 == 0x80000000#32 && t.pc == 0x00001004#32) = true := by decide
theorem test_srl_zeros_enter : leaves (runs 0x007352B3 (machine 0x00001000#32 [(6, 0x87654321#32), (7, 0x00000104#32)] []))
    (fun t => t.readReg 5 == 0x08765432#32 && t.pc == 0x00001004#32) = true := by decide
theorem test_sra_amount_mod_32 : leaves (runs 0x407352B3 (machine 0x00001000#32 [(6, 0x87654321#32), (7, 0x00000024#32)] []))
    (fun t => t.readReg 5 == 0xF8765432#32 && t.pc == 0x00001004#32) = true := by decide
theorem test_sra_positive : leaves (runs 0x407352B3 (machine 0x00001000#32 [(6, 0x7FFFFFFF#32), (7, 0x0000001F#32)] []))
    (fun t => t.readReg 5 == 0x00000000#32 && t.pc == 0x00001004#32) = true := by decide
theorem test_or_bits : leaves (runs 0x007362B3 (machine 0x00001000#32 [(6, 0x00000003#32), (7, 0x00000005#32)] []))
    (fun t => t.readReg 5 == 0x00000007#32 && t.pc == 0x00001004#32) = true := by decide
theorem test_and_bits : leaves (runs 0x007372B3 (machine 0x00001000#32 [(6, 0xFFFF0000#32), (7, 0x00FFFF00#32)] []))
    (fun t => t.readReg 5 == 0x00FF0000#32 && t.pc == 0x00001004#32) = true := by decide
theorem test_lui_upper : leaves (runs 0x123452B7 (machine 0x00001000#32 [] []))
    (fun t => t.readReg 5 == 0x12345000#32 && t.pc == 0x00001004#32) = true := by decide
theorem test_lui_to_x0 : leaves (runs 0x12345037 (machine 0x00001000#32 [] []))
    (fun t => t.readReg 0 == 0x00000000#32 && t.pc == 0x00001004#32) = true := by decide
theorem test_beq_most_negative_offset : leaves (runs 0x80628063 (machine 0x00002000#32 [(5, 0x00000001#32), (6, 0x00000001#32)] []))
    (fun t => t.pc == 0x00001000#32) = true := by decide
theorem test_beq_misaligned_taken : faultsWith (runs 0x00628163 (machine 0x00001000#32 [(5, 0x00000001#32), (6, 0x00000001#32)] []))
    (.instructionAddressMisaligned 0x00001000#32 0x00001002#32) = true := by decide
theorem test_bne_back : leaves (runs 0xFE629CE3 (machine 0x00000010#32 [(5, 0x00000001#32), (6, 0x00000000#32)] []))
    (fun t => t.pc == 0x00000008#32) = true := by decide
theorem test_bne_equal : leaves (runs 0x00629863 (machine 0x00001000#32 [(5, 0x00000005#32), (6, 0x00000005#32)] []))
    (fun t => t.pc == 0x00001004#32) = true := by decide
theorem test_blt_target_wraps : leaves (runs 0xFE62CEE3 (machine 0x00000000#32 [(5, 0xFFFFFFFF#32), (6, 0x00000000#32)] []))
    (fun t => t.pc == 0xFFFFFFFC#32) = true := by decide
theorem test_blt_signed : leaves (runs 0x0062C863 (machine 0x00001000#32 [(5, 0x7FFFFFFF#32), (6, 0x80000000#32)] []))
    (fun t => t.pc == 0x00001004#32) = true := by decide
theorem test_bge_misaligned_taken : faultsWith (runs 0x7E62DFE3 (machine 0x00001000#32 [(5, 0x00000001#32), (6, 0x00000001#32)] []))
    (.instructionAddressMisaligned 0x00001000#32 0x00001FFE#32) = true := by decide
theorem test_bge_signed : leaves (runs 0x0062D863 (machine 0x00001000#32 [(5, 0x00000000#32), (6, 0xFFFFFFFF#32)] []))
    (fun t => t.pc == 0x00001010#32) = true := by decide
theorem test_bltu_unsigned : leaves (runs 0x0062E863 (machine 0x00001000#32 [(5, 0x00000000#32), (6, 0xFFFFFFFF#32)] []))
    (fun t => t.pc == 0x00001010#32) = true := by decide
theorem test_bltu_not_less : leaves (runs 0x0062E863 (machine 0x00001000#32 [(5, 0x80000000#32), (6, 0x7FFFFFFF#32)] []))
    (fun t => t.pc == 0x00001004#32) = true := by decide
theorem test_bgeu_unsigned : leaves (runs 0x0062F863 (machine 0x00001000#32 [(5, 0xFFFFFFFF#32), (6, 0x00000000#32)] []))
    (fun t => t.pc == 0x00001010#32) = true := by decide
theorem test_bgeu_less : leaves (runs 0x0062F863 (machine 0x00001000#32 [(5, 0x00000005#32), (6, 0x00000006#32)] []))
    (fun t => t.pc == 0x00001004#32) = true := by decide
theorem test_jalr_rd_is_rs1 : leaves (runs 0x004282E7 (machine 0x00001000#32 [(5, 0x00002000#32)] []))
    (fun t => t.readReg 5 == 0x00001004#32 && t.pc == 0x00002004#32) = true := by decide
theorem test_jalr_clears_bit0 : leaves (runs 0x001280E7 (machine 0x00001000#32 [(5, 0x00002000#32)] []))
    (fun t => t.readReg 1 == 0x00001004#32 && t.pc == 0x00002000#32) = true := by decide
theorem test_jal_source_case : leaves (runs 0x008001EF (machine 0x00000040#32 [] []))
    (fun t => t.readReg 3 == 0x00000044#32 && t.pc == 0x00000048#32) = true := by decide
theorem test_jal_misaligned : faultsWith (runs 0x002000EF (machine 0x00001000#32 [] []))
    (.instructionAddressMisaligned 0x00001000#32 0x00001002#32) = true := by decide

/-! ### Faults, reset and the host's functions -/

/-- R185: misalignment comes before the access check, and both before nothing is written. -/
theorem test_misaligned_before_access :
    faultsWith (exec (.lw 5 6 1) (mapped [] .sees (machine 0x00001000#32 [(6, 0x00002000#32)] [])))
      (.loadAddressMisaligned 0x00001000#32 0x00002001#32) = true := by decide
/-- R46: the last byte of the word at `pc` is not executable. -/
theorem test_fetch_access_fault :
    faultsWith (step (mapped [plain 0x1000 3] .sees (machine 0x00001000#32 [] [])))
      (.instructionAccessFault 0x00001000#32 0x00001000#32) = true := by decide
/-- R171 with `JALR_CLEARS_BIT0 = false`: the odd sum faults (`95_test_vectors.md` 2.7). -/
theorem test_jalr_odd_sum_kept :
    faultsWith (exec (.jalr 1 5 1) { machine 0x00001000#32 [(5, 0x00002000#32)] [] with
        params := { defaultParams with jalrClearsBit0 := false } })
      (.instructionAddressMisaligned 0x00001000#32 0x00002001#32) = true := by decide
/-- R55, `FETCH_SEES_STORES = true` and `false`: a fetch of stored code. -/
theorem test_fetch_after_store_to_code :
    leaves (exec (.sw 6 7 0) (machine 0x00001000#32 [(6, 0x00500113#32), (7, 0x00001004#32)] []))
      (fun t => leaves (step t) fun u => u.readReg 2 == 5#32) = true := by decide
theorem test_fetch_reads_initial_code :
    leaves (exec (.sw 6 7 0) { machine 0x00001000#32 [(6, 0x00500113#32), (7, 0x00001004#32)] [] with
        params := { defaultParams with fetchSeesStores := .ignores,
                                       initMem := placeBytes [] 0x00001004#32 0x00100113#32 4 } })
      (fun t => leaves (step t) fun u => u.readReg 2 == 1#32) = true := by decide
/-- R55 at refuse: the byte stored to is named. -/
theorem test_fetch_of_stored_code_refused :
    leaves (exec (.sb 6 7 0) (mapped [wholeSpace] .refuse
        (machine 0x00001000#32 [(6, 0x00000005#32), (7, 0x00001007#32)] [])))
      (fun t => refusedWith (step t) (.storeToCode 0x00001007#32)) = true := by decide
/-- The host's functions: the instruction placed at reset runs first, under each setting of the fetch. -/
theorem test_placed_word_runs_at_reset :
    leaves (runs 0x00500113 State.reset) (fun t => t.readReg 2 == 5#32 && t.pc == 0x00000004#32) = true := by decide
theorem test_placed_word_runs_when_stores_are_not_seen :
    leaves (runs 0x00500113 (mapped [] .ignores State.reset)) (fun t => t.readReg 2 == 5#32) = true := by decide
theorem test_placed_word_runs_over_stored_code :
    leaves (runs 0x00500113 (mapped [] .refuse { State.reset with stores := [⟨0#32, .word, 0#32⟩] }))
      (fun t => t.readReg 2 == 5#32) = true := by decide
theorem test_reset_memory_is_canonical : State.reset.mem.wf = true := by decide
theorem test_memory_form_refused :
    Memory.wf [(5, 1#8), (5, 2#8)] = false ∧ Memory.wf [(6, 1#8), (5, 2#8)] = false ∧
    Memory.wf [(4294967296, 1#8)] = false := by decide
/-- R218: the self-branch is the end of a run, a jump to itself that links is not. -/
theorem test_halt_at_self_transfer :
    ((machine 0x00001000#32 [] []).withFetchWord 32 0x00000063).halts = true ∧
    ((machine 0x00001000#32 [] []).withFetchWord 32 0x000000EF).halts = false := by decide

/-! ### States and operands that meet the hypotheses of each statement

Each theorem is named after the statement in `Certificates/Slice0/Obligations.lean` it serves; one with clauses has a
part, or a theorem, for each, at a boundary of its range. -/

/-- Readable device bytes at the top of the space, over plain memory below them. -/
def deviceMap : List Region := [⟨0xFFFFFFFC, 4, true, true, false, true⟩, wholeSpace]

theorem test_witness_DecodeInvertsEncode : (Instr.jal 31 (-1048576)).wf = true := by decide
theorem test_witness_EncodeInvertsDecode : decode 0xFE420AE3#32 = .ok (.beq 4 4 (-12)) := by decide
theorem test_witness_DecoderAgreesWithOpcodeTable :
    (⟨"srai", 0xFE00707F#32, 0x40005013#32⟩ : OpcodeRow) ∈ opcodeTable ∧
    0x41F35293#32 &&& 0xFE00707F#32 = 0x40005013#32 ∧
    decode 0x41F35293#32 = .ok (.srai 5 6 31) ∧ (Instr.srai 5 6 31).mnemonic = "srai" := by decide
theorem test_witness_NoWordFitsTwoRows :
    (⟨"lb", 0x0000707F#32, 0x00000003#32⟩ : OpcodeRow) ∈ opcodeTable ∧
    0x00030283#32 &&& 0x0000707F#32 = 0x00000003#32 := by decide

/-- The state with a word placed at `pc = 0x1000`. -/
def holding (w : Nat) : State := (machine 0x00001000#32 [] []).withFetchWord 32 w

/-- The step of each illegal word above runs through this fetch; every clause of R88's table has words there. -/
theorem test_witness_UnlistedWordsFault : fetch (holding 0x00000073) = .next (0x00000073#32, holding 0x00000073) := by
  rfl
theorem test_witness_UnlistedWordsFault_clauses :
    opField 0x00000073#32 ∉ [0b0000011#7, 0b0010011#7, 0b0010111#7, 0b0100011#7, 0b0110011#7, 0b0110111#7,
      0b1100011#7, 0b1100111#7, 0b1101111#7] ∧
    (opField 0x00007003#32 = 0b0000011#7 ∧ funct3Field 0x00007003#32 = 0b111#3) ∧
    (opField 0x02001013#32 = 0b0010011#7 ∧ funct3Field 0x02001013#32 = 0b001#3 ∧
      funct7Field 0x02001013#32 ≠ 0b0000000#7) ∧
    (opField 0x20005013#32 = 0b0010011#7 ∧ funct3Field 0x20005013#32 = 0b101#3 ∧
      funct7Field 0x20005013#32 ≠ 0b0000000#7 ∧ funct7Field 0x20005013#32 ≠ 0b0100000#7) ∧
    (opField 0x00003023#32 = 0b0100011#7 ∧ funct3Field 0x00003023#32 = 0b011#3) ∧
    (opField 0x80000033#32 = 0b0110011#7 ∧ funct7Field 0x80000033#32 = 0b1000000#7) ∧
    (opField 0x40001033#32 = 0b0110011#7 ∧ funct7Field 0x40001033#32 = 0b0100000#7 ∧
      funct3Field 0x40001033#32 = 0b001#3) ∧
    (opField 0x00003063#32 = 0b1100011#7 ∧ funct3Field 0x00003063#32 = 0b011#3) ∧
    (opField 0x00001067#32 = 0b1100111#7 ∧ funct3Field 0x00001067#32 = 0b001#3) := by decide

/-- The last byte of the word is not executable. -/
theorem test_witness_FetchReadsLittleEndianWord_unmapped :
    (mapped [plain 0x1000 3] .sees (machine 0x00001000#32 [] [])).pc.toNat % 4 = 0 ∧
    ∃ k, k < 4 ∧ (mapped [plain 0x1000 3] .sees (machine 0x00001000#32 [] [])).executable
      ((mapped [plain 0x1000 3] .sees (machine 0x00001000#32 [] [])).pc.toNat + k) = false :=
  ⟨by decide, 3, by decide, by decide⟩
theorem test_witness_FetchReadsLittleEndianWord :
    (machine 0xFFFFFFFC#32 [] []).pc.toNat % 4 = 0 ∧
    PlainExecutable (machine 0xFFFFFFFC#32 [] []) (machine 0xFFFFFFFC#32 [] []).pc 4 ∧
    (machine 0xFFFFFFFC#32 [] []).params.fetchSeesStores = .sees := by
  unfold PlainExecutable; decide
theorem test_witness_StepRunsDecodedInstruction :
    (holding 0xFF718393).pc.toNat % 4 = 0 ∧ PlainExecutable (holding 0xFF718393) (holding 0xFF718393).pc 4 ∧
    (holding 0xFF718393).params.fetchSeesStores = .sees ∧
    decode ((holding 0xFF718393).byteAt 0x1003 ++ (holding 0xFF718393).byteAt 0x1002 ++
      (holding 0xFF718393).byteAt 0x1001 ++ (holding 0xFF718393).byteAt 0x1000) = .ok (.addi 7 3 (-9)) := by
  unfold PlainExecutable; decide
theorem test_witness_PlacedInstructionRunsNext : (Instr.beq 0 0 (-4096)).wf = true := by decide

/-- A machine about to store `x6` through `x7`. -/
def storing (map : List Region) (f : FetchSeesStores) (x7 : Word) : State :=
  mapped map f (machine 0x00001000#32 [(6, 0x12345678#32), (7, x7)] [])

theorem test_witness_FetchSeesStoredWord :
    (storing [wholeSpace] .sees 0xFFFFFFFC#32).params.fetchSeesStores = .sees ∧
    PlainExecutable (storing [wholeSpace] .sees 0xFFFFFFFC#32)
      (effectiveAddress (storing [wholeSpace] .sees 0xFFFFFFFC#32) 7 0) 4 ∧
    ∃ t, exec (.sw 6 7 0) (storing [wholeSpace] .sees 0xFFFFFFFC#32) = .next t :=
  ⟨by decide, by unfold PlainExecutable; decide, _, rfl⟩

/-- `INIT_MEM` holds `addi x2, x0, 5` at 0x2000, where the store goes. -/
def ignoring : State :=
  { storing [wholeSpace] .ignores 0x00002000#32 with
    params := { defaultParams with fetchSeesStores := .ignores,
                                   initMem := placeBytes [] 0x00002000#32 0x00500113#32 4 } }

theorem test_witness_FetchIgnoringStoresKeepsWord :
    ignoring.params.fetchSeesStores = .ignores ∧ kindOf (.sw 6 7 0) = .store .word ∧
    (∃ t, exec (.sw 6 7 0) ignoring = .next t) ∧ (0x00002000#32 : Word).toNat % 4 = 0 ∧
    PlainExecutable ignoring 0x00002000#32 4 ∧
    fetch (ignoring.setPc 0x00002000#32) = .next (0x00500113#32, ignoring.setPc 0x00002000#32) :=
  ⟨by decide, by decide, ⟨_, rfl⟩, by decide, by unfold PlainExecutable; decide, rfl⟩

/-- A byte store to the last byte of the word at 0x2000. -/
theorem test_witness_FetchOfStoredCodeRefused :
    (storing [wholeSpace] .refuse 0x00002003#32).params.fetchSeesStores = .refuse ∧
    kindOf (.sb 6 7 0) = .store .byte ∧
    (∃ t, exec (.sb 6 7 0) (storing [wholeSpace] .refuse 0x00002003#32) = .next t ∧
      t.stores = (storing [wholeSpace] .refuse 0x00002003#32).stores ++ [⟨0x00002003#32, .byte, 0x00000078#32⟩]) ∧
    (0x00002000#32 : Word).toNat % 4 = 0 ∧
    PlainExecutable (storing [wholeSpace] .refuse 0x00002003#32) 0x00002000#32 4 ∧
    (0x00002003#32 : Word).toNat ≤ (0x00002000#32 : Word).toNat + 3 ∧
    (0x00002000#32 : Word).toNat + 3 < (0x00002003#32 : Word).toNat + widthBytes .byte :=
  ⟨by decide, by decide, ⟨_, rfl, by decide⟩, by decide, by unfold PlainExecutable; decide, by decide, by decide⟩

theorem test_witness_LoadByteExtends :
    PlainReadable (machine 0#32 [(6, 0xFFFFFFFF#32)] [])
      (effectiveAddress (machine 0#32 [(6, 0xFFFFFFFF#32)] []) 6 0) 1 := by
  unfold PlainReadable; decide
theorem test_witness_LoadHalfExtends :
    (effectiveAddress (machine 0#32 [(6, 0xFFFFFFFE#32)] []) 6 0).toNat % 2 = 0 ∧
    PlainReadable (machine 0#32 [(6, 0xFFFFFFFE#32)] [])
      (effectiveAddress (machine 0#32 [(6, 0xFFFFFFFE#32)] []) 6 0) 2 := by
  unfold PlainReadable; decide
theorem test_witness_LoadWordAssembles :
    (effectiveAddress (machine 0#32 [(6, 0x00000004#32)] []) 6 (-8)).toNat % 4 = 0 ∧
    PlainReadable (machine 0#32 [(6, 0x00000004#32)] [])
      (effectiveAddress (machine 0#32 [(6, 0x00000004#32)] []) 6 (-8)) 4 := by
  unfold PlainReadable; decide

/-- A machine whose `x6` points at a device byte. -/
def atDevice : State := mapped deviceMap .sees (machine 0x00001000#32 [(6, 0xFFFFFFFC#32)] [])

theorem test_witness_LoadsCompleteWhenReadable :
    kindOf (.lw 5 6 0) = .load .word ∧
    Instr.lw 5 6 0 ∈ [.lb 5 6 0, .lh 5 6 0, .lw 5 6 0, .lbu 5 6 0, .lhu 5 6 0] ∧
    (effectiveAddress atDevice 6 0).toNat % widthBytes .word = 0 ∧
    ∀ k, k < widthBytes .word → atDevice.readable ((effectiveAddress atDevice 6 0).toNat + k) = true := by decide
theorem test_witness_DeviceByteLoadIsDraw :
    atDevice.readable (effectiveAddress atDevice 6 3).toNat = true ∧
    atDevice.isDevice (effectiveAddress atDevice 6 3).toNat = true := by decide

/-- A machine whose `x6` holds 0x2000, with this map. -/
def accessing (map : List Region) : State := mapped map .sees (machine 0x00001000#32 [(6, 0x00002000#32)] [])

theorem test_witness_MisalignedAccessFaults :
    (effectiveAddress (accessing []) 6 1).toNat % 2 ≠ 0 ∧ (effectiveAddress (accessing []) 6 2).toNat % 4 ≠ 0 ∧
    exec (.lb 5 6 0) (accessing []) = .fault (.loadAccessFault 0x00001000#32 0x00002000#32) ∧
    exec (.sb 5 6 0) (accessing []) = .fault (.storeAccessFault 0x00001000#32 0x00002000#32) :=
  ⟨by decide, by decide, rfl, rfl⟩
/-- The last byte of each access is not backed. -/
theorem test_witness_UnpermittedAccessFaults :
    (accessing []).readable 0x2000 = false ∧ (accessing []).writable 0x2000 = false ∧
    ((effectiveAddress (accessing [plain 0x2000 1]) 6 0).toNat % 2 = 0 ∧
      (accessing [plain 0x2000 1]).readable (0x2000 + 1) = false ∧
      (accessing [plain 0x2000 1]).writable (0x2000 + 1) = false) ∧
    ((effectiveAddress (accessing [plain 0x2000 3]) 6 0).toNat % 4 = 0 ∧
      (accessing [plain 0x2000 3]).readable (0x2000 + 3) = false ∧
      (accessing [plain 0x2000 3]).writable (0x2000 + 3) = false) := by decide

/-- The last byte, half and word of the space. -/
theorem test_witness_StoresWriteTheirBytes :
    (storing [wholeSpace] .sees 0xFFFFFFFF#32).writable
      (effectiveAddress (storing [wholeSpace] .sees 0xFFFFFFFF#32) 7 0).toNat = true ∧
    ((effectiveAddress (storing [wholeSpace] .sees 0xFFFFFFFE#32) 7 0).toNat % 2 = 0 ∧
      ∀ k, k < 2 → (storing [wholeSpace] .sees 0xFFFFFFFE#32).writable
        ((effectiveAddress (storing [wholeSpace] .sees 0xFFFFFFFE#32) 7 0).toNat + k) = true) ∧
    ((effectiveAddress (storing [wholeSpace] .sees 0xFFFFFFFC#32) 7 0).toNat % 4 = 0 ∧
      ∀ k, k < 4 → (storing [wholeSpace] .sees 0xFFFFFFFC#32).writable
        ((effectiveAddress (storing [wholeSpace] .sees 0xFFFFFFFC#32) 7 0).toNat + k) = true) := by decide

/-- After `sw` to `x7`, the last byte and the last half of the word are read through `x7`. -/
theorem test_witness_MixedWidthAccess_narrow_reads :
    PlainReadable (storing [wholeSpace] .sees 0x00002000#32) 0x00002000#32 4 ∧
    effectiveAddress (storing [wholeSpace] .sees 0x00002000#32) 7 0 = 0x00002000#32 ∧
    ∃ t, exec (.sw 6 7 0) (storing [wholeSpace] .sees 0x00002000#32) = .next t ∧
      effectiveAddress t 7 3 = 0x00002000#32 + BitVec.ofNat 32 3 ∧
      effectiveAddress t 7 2 = 0x00002000#32 + BitVec.ofNat 32 (2 * 1) :=
  ⟨by unfold PlainReadable; decide, by decide, _, rfl, by decide, by decide⟩
theorem test_witness_MixedWidthAccess_four_bytes :
    (0x00002000#32 : Word).toNat % 4 = 0 ∧ PlainReadable (storing [wholeSpace] .sees 0x00002000#32) 0x00002000#32 4 ∧
    (effectiveAddress (storing [wholeSpace] .sees 0x00002000#32) 7 0 = 0x00002000#32 ∧
      effectiveAddress (storing [wholeSpace] .sees 0x00002000#32) 7 1 = 0x00002000#32 + 1#32 ∧
      effectiveAddress (storing [wholeSpace] .sees 0x00002000#32) 7 2 = 0x00002000#32 + 2#32 ∧
      effectiveAddress (storing [wholeSpace] .sees 0x00002000#32) 7 3 = 0x00002000#32 + 3#32) ∧
    ∃ s1 s2 s3 s4, exec (.sb 6 7 0) (storing [wholeSpace] .sees 0x00002000#32) = .next s1 ∧
      exec (.sb 7 7 1) s1 = .next s2 ∧ exec (.sb 0 7 2) s2 = .next s3 ∧ exec (.sb 6 7 3) s3 = .next s4 :=
  ⟨by decide, by unfold PlainReadable; decide, by decide, _, _, _, _, rfl, rfl, rfl, rfl⟩
theorem test_witness_MixedWidthAccess_two_halves :
    (0x00002000#32 : Word).toNat % 4 = 0 ∧ PlainReadable (storing [wholeSpace] .sees 0x00002000#32) 0x00002000#32 4 ∧
    (effectiveAddress (storing [wholeSpace] .sees 0x00002000#32) 7 0 = 0x00002000#32 ∧
      effectiveAddress (storing [wholeSpace] .sees 0x00002000#32) 7 2 = 0x00002000#32 + 2#32) ∧
    ∃ s1 s2, exec (.sh 6 7 0) (storing [wholeSpace] .sees 0x00002000#32) = .next s1 ∧
      exec (.sh 7 7 2) s1 = .next s2 :=
  ⟨by decide, by unfold PlainReadable; decide, by decide, _, _, rfl, rfl⟩
theorem test_witness_MixedWidthAccess_other_bytes :
    (Instr.sh 6 7 0, 2) ∈ [(Instr.sb 6 7 0, 1), (Instr.sh 6 7 0, 2)] ∧
    (∃ t, exec (.sh 6 7 0) (storing [wholeSpace] .sees 0x00002000#32) = .next t) ∧
    (effectiveAddress (storing [wholeSpace] .sees 0x00002000#32) 7 0).toNat + 2 ≤ 0x2002 :=
  ⟨by decide, ⟨_, rfl⟩, by decide⟩

/-- A machine at the last word of the space with `x5 = 1` and `x6 = 2`. -/
def comparing : State := machine 0xFFFFFFFC#32 [(5, 1#32), (6, 2#32)] []

/-- Not taken; taken to a multiple of 4; taken to another address. -/
theorem test_witness_EqualityBranches :
    ¬(comparing.readReg 5).toNat = (comparing.readReg 6).toNat ∧
    ((comparing.readReg 5).toNat = (comparing.readReg 5).toNat ∧
      (BitVec.ofInt 32 (comparing.pc.toNat + (8#13).toInt)).toNat % 4 = 0) ∧
    (BitVec.ofInt 32 (comparing.pc.toNat + (4094#13).toInt)).toNat % 4 ≠ 0 := by decide
theorem test_witness_OrderBranches :
    (comparing.readReg 5).toInt < (comparing.readReg 6).toInt ∧
    ¬(comparing.readReg 5).toInt ≥ (comparing.readReg 6).toInt ∧
    (comparing.readReg 5).toNat < (comparing.readReg 6).toNat ∧
    (comparing.readReg 6).toNat ≥ (comparing.readReg 6).toNat ∧
    (BitVec.ofInt 32 (comparing.pc.toNat + (8#13).toInt)).toNat % 4 = 0 ∧
    (BitVec.ofInt 32 (comparing.pc.toNat + (4094#13).toInt)).toNat % 4 ≠ 0 := by decide
theorem test_witness_JalLinksAndJumps :
    (BitVec.ofInt 32 (comparing.pc.toNat + (8#21).toInt)).toNat % 4 = 0 ∧
    (BitVec.ofInt 32 (comparing.pc.toNat + (2#21).toInt)).toNat % 4 ≠ 0 := by decide
theorem test_witness_JalrLinksAndJumps :
    comparing.params.jalrClearsBit0 = true ∧
    (BitVec.ofInt 32 ((comparing.readReg 5).toNat + (0#12).toInt)).toNat = 1 ∧
    (BitVec.ofNat 32 (1 - 1 % 2)).toNat % 4 = 0 ∧ (BitVec.ofNat 32 1).toNat % 4 ≠ 0 ∧
    ({ comparing with params := { defaultParams with jalrClearsBit0 := false } } : State).params.jalrClearsBit0
      = false := by decide
theorem test_witness_AddressSumWraps :
    (machine 0#32 [(6, 0x00000004#32)] []).readReg 6 = 0x00000004#32 ∧
    (machine 0#32 [(6, 0xFFFFFFFC#32)] []).readReg 6 = 0xFFFFFFFC#32 ∧
    aligned (effectiveAddress (machine 0#32 [(6, 0x00000004#32)] []) 6 (-8)) .word = true := by decide

theorem test_witness_PcGoesWhereTheRuleSays :
    (∃ t, exec (.jalr 5 6 2) comparing = .next t) ∧ (∃ t, exec (.blt 5 6 8) comparing = .next t) ∧
    ∃ t, exec (.add 5 5 6) comparing = .next t :=
  ⟨⟨_, rfl⟩, ⟨_, rfl⟩, ⟨_, rfl⟩⟩
theorem test_witness_OnlyDestinationChanges :
    (∃ t, exec (.addi 5 5 1) comparing = .next t) ∧ destOf (.addi 5 5 1) ≠ some 6 :=
  ⟨⟨_, rfl⟩, by decide⟩
theorem test_witness_WriteToX0Discarded :
    destOf (.lw 5 6 0) = some 5 ∧ (∃ t, exec (.lw 5 6 0) atDevice = .next t) ∧
    (∃ t, exec (toX0 (.lw 5 6 0)) atDevice = .next t) ∧ ∃ f, exec (.lw 5 6 0) (accessing []) = .fault f :=
  ⟨by decide, ⟨_, rfl⟩, ⟨_, rfl⟩, ⟨_, rfl⟩⟩
/-- A fault of each stage: the fetch, the decoder, the instruction. -/
theorem test_witness_FaultsOfEachInstruction :
    (∃ f, step (accessing []) = .fault f) ∧ (∃ f, step (holding 0x00000073) = .fault f) ∧
    ∃ f, step (holding 0x00102003) = .fault f :=
  ⟨⟨_, rfl⟩, ⟨_, rfl⟩, ⟨_, rfl⟩⟩
theorem test_witness_OnlyStoredCodeRefused :
    ∃ q, step { mapped [wholeSpace] .refuse State.reset with stores := [⟨3#32, .byte, 0#32⟩] } = .refused q :=
  ⟨_, rfl⟩

/-- `sw x6, 0(x7)` at `pc`, over bytes that differ from the ones it writes. -/
def aboutToStore : State :=
  (machine 0x00001000#32 [(6, 0x12345678#32), (7, 0x00002000#32)] stored).withFetchWord 32 0x0063A023

theorem test_witness_StepKeepsParams : ∃ t, step aboutToStore = .next t := ⟨_, rfl⟩
theorem test_witness_StoresRecordedInOrder : ∃ t, step aboutToStore = .next t := ⟨_, rfl⟩
/-- The last byte of the word changes. -/
theorem test_witness_MemoryChangesOnlyByStores :
    ∃ t, step aboutToStore = .next t ∧ t.byteAt 0x2003 ≠ aboutToStore.byteAt 0x2003 := ⟨_, rfl, by decide⟩

/-- Listed bytes that are all backed make every byte the list answers for backed. -/
theorem backed_of_listed (s : State) (h : ∀ c ∈ s.mem, s.backed c.1 = true) (a : Nat)
    (ha : (s.mem.get? a).isSome = true) : s.backed a = true := by
  obtain ⟨b, hb⟩ := Memory.mem_of_get?_isSome ha
  exact h _ hb
theorem test_witness_StepKeepsInvariant : Inv aboutToStore ∧ ∃ t, step aboutToStore = .next t :=
  ⟨⟨by decide, by decide, backed_of_listed _ (by decide), by decide, by decide, by decide⟩, _, rfl⟩

/-- Parameters that give bytes, up to the last of the space. -/
def givenParams : Params :=
  { defaultParams with resetPc := 0xFFFFFFFC#32, initRegs := Vector.replicate 31 7#32,
                       initMem := [(0, 1#8), (0xFFFFFFFF, 2#8)] }
theorem test_witness_HostResetMeetsInvariant :
    ParamsOk givenParams ∧ Memory.get? givenParams.initMem 0xFFFFFFFF = some 2#8 := by
  refine ⟨⟨by decide, by decide, ?_⟩, by decide⟩
  exact backed_of_listed (State.resetWith givenParams) (by decide)

/-- A state after one byte store, from `INIT_MEM` with nothing in it. -/
def afterByteStore : State :=
  { storing [wholeSpace] .sees 0x00002000#32 with
    mem := [(0x2000, 0x78#8)], stores := [⟨0x00002000#32, .byte, 0x00000078#32⟩] }
theorem holdsLatestStores_afterByteStore : HoldsLatestStores afterByteStore := by
  intro a _
  by_cases h : a = 0x2000
  · subst h; decide
  · have hc : storeCovers a ⟨0x00002000#32, .byte, 0x00000078#32⟩ = false := by
      simp [storeCovers, accessBytes, widthBytes, byteAddr, List.range, List.range.loop, h]
    simp [afterByteStore, lastStore, hc, Memory.get?, h, storing, mapped, machine, State.writeReg, State.reset,
      State.resetWith, defaultParams]
theorem test_witness_StepKeepsLatestStores :
    HoldsLatestStores (State.resetWith { defaultParams with initMem := placeBytes [] 0#32 0x0063A023#32 4 }) ∧
    ∃ t, step (State.resetWith { defaultParams with initMem := placeBytes [] 0#32 0x0063A023#32 4 }) = .next t :=
  ⟨fun _ _ => rfl, _, rfl⟩
theorem test_witness_LoadReturnsLatestStore :
    HoldsLatestStores afterByteStore ∧
    PlainReadable afterByteStore (effectiveAddress afterByteStore 7 0) 1 ∧
    lastStore afterByteStore.stores (effectiveAddress afterByteStore 7 0).toNat =
      some ⟨0x00002000#32, .byte, 0x00000078#32⟩ :=
  ⟨holdsLatestStores_afterByteStore, by unfold PlainReadable; decide, by decide⟩
theorem test_witness_HaltIsFixedPoint : (holding 0x00000063).halts = true := by decide
theorem test_witness_FinalStateIsUnique :
    Reaches (holding 0x00000063) (holding 0x00000063) ∧ (holding 0x00000063).halts = true := ⟨⟨1, rfl⟩, by decide⟩
/-- The byte at 0x2000 has no permission; the step is `addi x2, x0, 5`. -/
theorem test_witness_InaccessibleByteIsInvisible :
    (mapped [plain 0x1000 4] .sees (holding 0x00500113)).readable 0x2000 = false ∧
    (mapped [plain 0x1000 4] .sees (holding 0x00500113)).writable 0x2000 = false ∧
    (mapped [plain 0x1000 4] .sees (holding 0x00500113)).executable 0x2000 = false ∧
    ∃ t, step (mapped [plain 0x1000 4] .sees (holding 0x00500113)) = .next t :=
  ⟨by decide, by decide, by decide, _, rfl⟩

end Sys2Proof.Tests
end

namespace Sys2Proof.Machine

/-- A fetch that answers leaves the parameters alone: it only counts draws (R46, R49). -/
theorem fetch_keeps_params {s s' : State} {w : Word} (h : fetch s = .next (w, s')) : s'.params = s.params := by
  obtain ⟨-, -, -, rfl⟩ := fetch_eq_next h
  rfl

/-- So does an instruction that completes: of the shared operations, none writes `params`. -/
theorem exec_keeps_params {i : Instr} {s t : State} (h : exec i s = .next t) : t.params = s.params := by
  rcases exec_eq_next h with ⟨w, rd, v, n, -, -, rfl⟩ | ⟨w, addr, v, -, -, -, -, rfl⟩ | ⟨rd, v, -, -, rfl⟩ |
    ⟨-, -, rfl | ⟨a, -, rfl⟩⟩ | ⟨rd, -, -, a, -, rfl⟩
  · simp -- a load
  · simp -- a store
  · simp -- arithmetic
  · simp -- a branch not taken
  · simp -- a branch taken
  · simp -- a jump

/-- Settles O37: a step that answers is a fetch and then one instruction, and neither writes `params`. -/
theorem stepKeepsParams : Obligations.StepKeepsParams := by
  intro s t h
  obtain ⟨w, s', i, hfetch, -, hexec⟩ := step_eq_next h
  calc t.params = s'.params := exec_keeps_params hexec
    _ = s.params := fetch_keeps_params hfetch

end Sys2Proof.Machine

/-! ### What one step does to memory and to the record of stores -/

namespace Sys2Proof.Machine

open Sys2Proof.Config

/-- `t` holds the bytes and the record that a store of the low bytes of `v` to `a` leaves of `s` (R43, R45, R219): the
one change of memory an instruction can make. -/
structure StoredIn (s t : State) (a : Word) (w : Width) (v : Word) : Prop where
  aligned : a.toNat % widthBytes w = 0
  writable : ∀ k, k < widthBytes w → s.writable (a.toNat + k) = true
  listed : ∀ x, t.mem.get? x =
    if a.toNat ≤ x ∧ x < a.toNat + widthBytes w ∧ s.isDevice x = false then some (leByte v (x - a.toNat))
    else s.mem.get? x
  keepsWf : s.mem.wf = true → t.mem.wf = true
  stores : t.stores = s.stores ++ [⟨a, w, widthValue w v⟩]

/-- A `MemWrite` that passed its two checks stores, and so does an instruction that ends with one (R45, R130). -/
theorem storedIn_of_checked {s : State} {a : Word} {w : Width} (v : Word) (ha : aligned a w = true)
    (hw : ∀ x ∈ accessBytes a w, s.writable x = true) :
    StoredIn s ((s.storeBytes a v (widthBytes w)).recordStore a w v).advance a w v where
  aligned := aligned_iff.mp ha
  writable k hk := hw _ ((mem_accessBytes ha).mpr ⟨by omega, by omega⟩)
  listed := State.get?_storeBytes s ha _ le_rfl
  keepsWf := State.storeBytes_wf s a v _
  stores := by simp

/-- An instruction that completes leaves memory and the record of stores alone, or it stores. -/
theorem exec_keeps_or_stores {i : Instr} {s t : State} (h : exec i s = .next t) :
    (t.mem = s.mem ∧ t.stores = s.stores) ∨ ∃ a w v, StoredIn s t a w v := by
  rcases exec_eq_next h with ⟨w, rd, v, n, -, -, rfl⟩ | ⟨w, a, v, -, -, ha, hw, rfl⟩ | ⟨rd, v, -, -, rfl⟩ |
    ⟨-, -, rfl | ⟨a, -, rfl⟩⟩ | ⟨rd, -, -, a, -, rfl⟩
  · exact .inl ⟨by simp, by simp⟩ -- a load
  · exact .inr ⟨a, w, v, storedIn_of_checked v ha hw⟩
  · exact .inl ⟨by simp, by simp⟩ -- arithmetic
  · exact .inl ⟨rfl, rfl⟩ -- a branch not taken
  · exact .inl ⟨rfl, rfl⟩ -- a branch taken
  · exact .inl ⟨by simp, by simp⟩ -- a jump

/-- So does a step: its fetch writes neither. -/
theorem step_keeps_or_stores {s t : State} (h : step s = .next t) :
    (t.mem = s.mem ∧ t.stores = s.stores) ∨ ∃ a w v, StoredIn s t a w v := by
  obtain ⟨w, s', i, hfetch, -, hexec⟩ := step_eq_next h
  obtain ⟨-, -, -, rfl⟩ := fetch_eq_next hfetch
  rcases exec_keeps_or_stores hexec with hkept | ⟨a, w, v, haligned, hwritable, hlisted, hwf, hstores⟩
  · exact .inl hkept
  · exact .inr ⟨a, w, v, haligned, hwritable, hlisted, hwf, hstores⟩

/-- Every byte of a store was writable (R45). -/
theorem StoredIn.writable_at {s t : State} {a : Word} {w : Width} {v : Word} (h : StoredIn s t a w v) {x : Nat}
    (hlow : a.toNat ≤ x) (hhigh : x < a.toNat + widthBytes w) : s.writable x = true := by
  have hk := h.writable (x - a.toNat) (by omega)
  rwa [Nat.add_sub_cancel' hlow] at hk

/-- What a byte reads as after a store. -/
theorem StoredIn.byteAt {s t : State} {a : Word} {w : Width} {v : Word} (h : StoredIn s t a w v) (x : Nat) :
    t.byteAt x =
      if a.toNat ≤ x ∧ x < a.toNat + widthBytes w ∧ s.isDevice x = false then leByte v (x - a.toNat)
      else s.byteAt x := by
  unfold State.byteAt
  rw [h.listed]
  by_cases hx : a.toNat ≤ x ∧ x < a.toNat + widthBytes w ∧ s.isDevice x = false
  · rw [if_pos hx, if_pos hx]
  · rw [if_neg hx, if_neg hx]

/-- The recorded value has every byte the store wrote: only bits above the width are cleared (R47). -/
theorem leByte_widthValue (w : Width) (v : Word) {k : Nat} (hk : k < widthBytes w) :
    leByte (widthValue w v) k = leByte v k := by
  obtain ⟨d, hd⟩ := Nat.exists_eq_add_of_lt hk
  have hdvd : 2 ^ 8 ∣ 256 ^ (d + 1) := dvd_pow_self 256 d.succ_ne_zero
  rw [leByte_eq_ofNat, leByte_eq_ofNat, widthValue_toNat, hd, Nat.add_assoc, pow_add, Nat.mod_mul_right_div_self]
  apply BitVec.eq_of_toNat_eq
  rw [BitVec.toNat_ofNat, BitVec.toNat_ofNat, Nat.mod_mod_of_dvd _ hdvd]

/-- Settles O38: the step stored, and the byte is among the plain bytes of that store. -/
theorem memoryChangesOnlyByStores : Obligations.MemoryChangesOnlyByStores := by
  intro s t x hstep hchanged
  rcases step_keeps_or_stores hstep with ⟨hmem, -⟩ | ⟨a, w, v, hstored⟩
  · exact absurd (State.byteAt_congr hmem x) hchanged
  · by_cases hx : a.toNat ≤ x ∧ x < a.toNat + widthBytes w ∧ s.isDevice x = false
    · have hbyte : t.byteAt x = leByte v (x - a.toNat) := by rw [hstored.byteAt, if_pos hx]
      obtain ⟨hlow, hhigh, hplain⟩ := hx
      refine ⟨hstored.writable_at hlow hhigh, hplain, _, hstored.stores, hlow, hhigh, ?_⟩
      rw [hbyte, ← leByte_eq_ofNat, leByte_widthValue w v (Nat.sub_lt_left_of_lt_add hlow hhigh)]
    · rw [hstored.byteAt, if_neg hx] at hchanged
      exact absurd rfl hchanged

/-! ### The invariant of every run -/

/-- The next instruction in line stands at a multiple of 4 (R25, R27). -/
theorem add_four_mod_four {pc : Word} (h : pc.toNat % 4 = 0) : (pc + 4#32).toNat % 4 = 0 := by
  rw [BitVec.toNat_add, BitVec.toNat_ofNat]
  omega

/-- An instruction that completes keeps `pc` a multiple of 4: it advances, or it checked its target (R27). -/
theorem exec_keeps_pc_aligned {i : Instr} {s t : State} (hpc : s.pc.toNat % 4 = 0) (h : exec i s = .next t) :
    t.pc.toNat % 4 = 0 := by
  rcases exec_eq_next h with ⟨w, rd, v, n, -, -, rfl⟩ | ⟨w, a, v, -, -, -, -, rfl⟩ | ⟨rd, v, -, -, rfl⟩ |
    ⟨-, -, rfl | ⟨a, ha, rfl⟩⟩ | ⟨rd, -, -, a, ha, rfl⟩
  · simpa using add_four_mod_four hpc -- a load
  · simpa using add_four_mod_four hpc -- a store
  · simpa using add_four_mod_four hpc -- arithmetic
  · exact add_four_mod_four hpc -- a branch not taken
  · exact ha -- a branch taken
  · exact ha -- a jump

/-- So does a step. -/
theorem step_keeps_pc_aligned {s t : State} (hpc : s.pc.toNat % 4 = 0) (h : step s = .next t) :
    t.pc.toNat % 4 = 0 := by
  obtain ⟨w, s', i, hfetch, -, hexec⟩ := step_eq_next h
  obtain ⟨-, -, -, hs'⟩ := fetch_eq_next hfetch
  exact exec_keeps_pc_aligned (by rw [hs']; exact hpc) hexec

/-- A writable byte is backed (R45, R50). -/
theorem State.backed_of_writable {s : State} {a : Nat} (h : s.writable a = true) : s.backed a = true := by
  unfold State.writable at h
  unfold State.backed
  cases hr : regionAt s.params.memMap a with
  | none => simp [hr] at h
  | some r => rfl

/-- The invariant looks at `pc`, the bytes, the map and the record alone. -/
theorem Inv.of_same_memory {s t : State} (h : Inv s) (hpc : t.pc.toNat % 4 = 0) (hparams : t.params = s.params)
    (hmem : t.mem = s.mem) (hstores : t.stores = s.stores) : Inv t where
  pcAligned := hpc
  memWf := hmem ▸ h.memWf
  memBacked a ha := by rw [State.backed_congr hparams]; exact h.memBacked a (hmem ▸ ha)
  storesAligned e he := h.storesAligned e (hstores ▸ he)
  storesWritable e he k hk := by rw [State.writable_congr hparams]; exact h.storesWritable e (hstores ▸ he) k hk
  storesNarrow e he := h.storesNarrow e (hstores ▸ he)

/-- A record after a store is an earlier one or the store's own. -/
theorem StoredIn.mem_stores {s t : State} {a : Word} {w : Width} {v : Word} (h : StoredIn s t a w v) {e : StoreEvent}
    (he : e ∈ t.stores) : e ∈ s.stores ∨ e = ⟨a, w, widthValue w v⟩ := by
  simpa [h.stores] using he

/-- A store keeps the invariant: its bytes were writable, so backed, and its record meets the three clauses. -/
theorem Inv.of_storedIn {s t : State} {a : Word} {w : Width} {v : Word} (h : Inv s) (hpc : t.pc.toNat % 4 = 0)
    (hparams : t.params = s.params) (hst : StoredIn s t a w v) : Inv t where
  pcAligned := hpc
  memWf := hst.keepsWf h.memWf
  memBacked x hx := by
    rw [State.backed_congr hparams]
    rw [hst.listed] at hx
    by_cases hin : a.toNat ≤ x ∧ x < a.toNat + widthBytes w ∧ s.isDevice x = false
    · obtain ⟨hlow, hhigh, -⟩ := hin
      exact State.backed_of_writable (hst.writable_at hlow hhigh)
    · rw [if_neg hin] at hx
      exact h.memBacked x hx
  storesAligned e he := by
    rcases hst.mem_stores he with hold | rfl
    · exact h.storesAligned e hold
    · exact hst.aligned
  storesWritable e he k hk := by
    rw [State.writable_congr hparams]
    rcases hst.mem_stores he with hold | rfl
    · exact h.storesWritable e hold k hk
    · exact hst.writable k hk
  storesNarrow e he := by
    rcases hst.mem_stores he with hold | rfl
    · exact h.storesNarrow e hold
    · rw [widthValue_toNat]
      exact Nat.mod_lt _ (by positivity)

/-- Settles O40: a step keeps `pc` aligned and the parameters, and it leaves memory and the record alone or stores. -/
theorem stepKeepsInvariant : Obligations.StepKeepsInvariant := by
  intro s t hinv hstep
  have hpc := step_keeps_pc_aligned hinv.pcAligned hstep
  have hparams := stepKeepsParams s t hstep
  rcases step_keeps_or_stores hstep with ⟨hmem, hstores⟩ | ⟨a, w, v, hstored⟩
  · exact hinv.of_same_memory hpc hparams hmem hstores
  · exact hinv.of_storedIn hpc hparams hstored

/-- The state after reset meets the invariant when the parameters are a host's: nothing has been stored. -/
theorem inv_resetWith {p : Params} (hp : ParamsOk p) : Inv (State.resetWith p) where
  pcAligned := hp.resetPc
  memWf := hp.initMemWf
  memBacked := hp.initMemBacked
  storesAligned := by simp [State.resetWith]
  storesWritable := by simp [State.resetWith]
  storesNarrow := by simp [State.resetWith]

/-- The parameters of `State.reset` are ones a host may give: they start at 0 and give no byte. -/
theorem paramsOk_default : ParamsOk defaultParams where
  resetPc := rfl
  initMemWf := rfl
  initMemBacked a ha := by simp [defaultParams, Memory.get?] at ha

/-- Register `k + 1` stands at index `k` of `regs` (R20). -/
theorem State.readReg_succ (s : State) (k : Nat) (h : k < 31) : s.readReg ⟨k + 1, by omega⟩ = s.regs[k] := by
  have hne : (⟨k + 1, by omega⟩ : Reg) ≠ 0 := fun he => by simpa using congrArg Fin.val he
  unfold State.readReg
  rw [if_neg hne]
  rfl

/-- Settles O41: the default parameters are ones a host may give. -/
theorem resetMeetsInvariant : Obligations.ResetMeetsInvariant :=
  inv_resetWith paramsOk_default

/-- Settles O42: the invariant by `inv_resetWith`; the registers and bytes are the given ones. -/
theorem hostResetMeetsInvariant : Obligations.HostResetMeetsInvariant := by
  intro p hp
  refine ⟨inv_resetWith hp, rfl, State.readReg_zero _, State.readReg_succ _, fun a b hb => ?_⟩
  have hlisted : (State.resetWith p).mem.get? a = some b := hb
  simp [State.byteAt, hlisted]

/-- Settles O44: the record is empty after reset, so each plain byte must list its `INIT_MEM` value, and does. -/
theorem resetHoldsLatestStores : Obligations.ResetHoldsLatestStores := by
  intro p a _
  have hnone : lastStore (State.resetWith p).stores a = none := rfl
  rw [hnone]
  rfl

/-! ### The fetch of plain code -/

/-- The four byte addresses of an aligned word (R41, R51). -/
theorem accessBytes_word {a : Word} (ha : a.toNat % 4 = 0) :
    accessBytes a .word = [a.toNat, a.toNat + 1, a.toNat + 2, a.toNat + 3] := by
  have hbyte : ∀ k, k < 4 → byteAddr a k = a.toNat + k := fun k hk =>
    byteAddr_of_aligned (w := .word) (aligned_iff.mpr ha) hk
  simp [accessBytes, widthBytes, List.range, List.range.loop, hbyte]

/-- A fetch that sees stores refuses no byte (R55). -/
theorem State.refusedCode_of_sees {s : State} (h : s.params.fetchSeesStores = .sees) : s.refusedCode = none := by
  unfold State.refusedCode
  rw [h]

/-- A fetch that sees stores reads the shared array (R55). -/
theorem State.codeByteAt_of_sees {s : State} (h : s.params.fetchSeesStores = .sees) (a : Nat) :
    s.codeByteAt a = s.byteAt a := by
  simp [State.codeByteAt, State.codeMemory, h, State.byteAt]

/-- A fetch that sees stores reads the word that four plain executable bytes hold (R46, R55). -/
theorem fetch_of_sees {s : State} (hpc : s.pc.toNat % 4 = 0) (hx : PlainExecutable s s.pc 4)
    (hsees : s.params.fetchSeesStores = .sees) :
    fetch s = .next (leWord [s.byteAt s.pc.toNat, s.byteAt (s.pc.toNat + 1), s.byteAt (s.pc.toNat + 2),
      s.byteAt (s.pc.toNat + 3)], s) := by
  have hbytes : ∀ a ∈ accessBytes s.pc .word, s.executable a = true ∧ s.isDevice a = false := by
    intro a ha
    obtain ⟨hlow, hhigh⟩ := (mem_accessBytes (aligned_iff.mpr hpc)).mp ha
    have hk := hx (a - s.pc.toNat) (by simp only [widthBytes] at hhigh; omega)
    rwa [Nat.add_sub_cancel' hlow] at hk
  rw [fetch_plain (fun a ha => (hbytes a ha).1) (fun a ha => (hbytes a ha).2) (State.refusedCode_of_sees hsees),
    accessBytes_word hpc]
  simp only [List.map_cons, List.map_nil, State.codeByteAt_of_sees hsees]

/-- Settles O8: the fetch answers the word of the four bytes and changes nothing, and that word decodes to `i`. -/
theorem stepRunsDecodedInstruction : Obligations.StepRunsDecodedInstruction := by
  intro s i hpc hx hsees hdecode
  refine step_of_fetch (fetch_of_sees hpc hx hsees) ?_
  rwa [leWord_four]

/-- A `sw` that completes stores `rs2`'s word at the effective address (R133). -/
theorem storedIn_of_sw {s t : State} {rs2 rs1 : Reg} {imm : BitVec 12} (h : exec (.sw rs2 rs1 imm) s = .next t) :
    StoredIn s t (effectiveAddress s rs1 imm) .word (s.readReg rs2) := by
  obtain ⟨s', hwrite, hadvance⟩ := andThen_eq_next (r := memWrite s _ .word (s.readReg rs2)) h
  obtain ⟨ha, hw, rfl⟩ := memWrite_eq_next hwrite
  cases hadvance
  exact storedIn_of_checked (s.readReg rs2) ha hw

/-- Settles O10: the fetch reads the four stored bytes, which make the register's word again. -/
theorem fetchSeesStoredWord : Obligations.FetchSeesStoredWord := by
  intro s t rs2 rs1 imm hsees hx h
  have hstored := storedIn_of_sw h
  have hkept := exec_keeps_params h
  generalize effectiveAddress s rs1 imm = a at *
  have hparams : (t.setPc a).params = s.params := hkept
  have hbyte : ∀ k, k < 4 → (t.setPc a).byteAt (a.toNat + k) = leByte (s.readReg rs2) k := by
    intro k hk
    obtain ⟨-, hplain⟩ := hx k hk
    rw [State.byteAt_congr (State.setPc_mem t a), hstored.byteAt,
      if_pos ⟨Nat.le_add_right _ k, Nat.add_lt_add_left hk _, hplain⟩, Nat.add_sub_cancel_left]
  have hcode : PlainExecutable (t.setPc a) a 4 := by
    intro k hk
    rw [State.executable_congr hparams, State.isDevice_congr hparams]
    exact hx k hk
  have hfirst : (t.setPc a).byteAt a.toNat = leByte (s.readReg rs2) 0 := hbyte 0 (by decide)
  rw [fetch_of_sees (s := t.setPc a) hstored.aligned hcode (hparams ▸ hsees), State.setPc_pc, hfirst,
    hbyte 1 (by decide), hbyte 2 (by decide), hbyte 3 (by decide), leWord_leByte]

/-! ### Where `pc` goes -/

/-- `pc + 4` in integer arithmetic (R25, R27). -/
theorem add_four_eq_ofNat (pc : Word) : pc + 4#32 = BitVec.ofNat 32 (pc.toNat + 4) := by
  apply BitVec.eq_of_toNat_eq
  simp

/-- An instruction that is no branch and no jump ends with `pc <- pc + 4` (R25). -/
theorem exec_pc_of_sequential {i : Instr} {s t : State} (hbranch : kindOf i ≠ .branch) (hjump : kindOf i ≠ .jump)
    (h : exec i s = .next t) : t.pc = BitVec.ofNat 32 (s.pc.toNat + 4) := by
  rw [← add_four_eq_ofNat]
  rcases exec_eq_next h with ⟨w, rd, v, n, -, -, rfl⟩ | ⟨w, a, v, -, -, -, -, rfl⟩ | ⟨rd, v, -, -, rfl⟩ |
    ⟨hkind, -, -⟩ | ⟨rd, hkind, -, -⟩
  · simp -- a load
  · simp -- a store
  · simp -- arithmetic
  · exact absurd hkind hbranch
  · exact absurd hkind hjump

/-- A branch that completes goes to its target when its condition holds, else past itself (R155). -/
theorem branchWhen_pc {s t : State} {c : Bool} {off : BitVec 13} (P : Prop) [Decidable P] (hc : c = true ↔ P)
    (h : branchWhen s c off = .next t) : t.pc = branchPc s P off := by
  unfold branchWhen at h
  unfold branchPc
  by_cases hP : P
  · rw [if_pos (hc.mpr hP)] at h
    obtain ⟨-, rfl⟩ := transferTo_eq_next h
    rw [if_pos hP, State.setPc_pc, branchTarget_eq_ofInt]
  · rw [if_neg (mt hc.mp hP)] at h
    cases h
    rw [if_neg hP, State.advance_pc, add_four_eq_ofNat]

/-- A jump that completes goes to its target (R170). -/
theorem jumpAndLink_pc {s t : State} {rd : Reg} {target : Word} (h : jumpAndLink s rd target = .next t) :
    t.pc = target := by
  obtain ⟨-, rfl⟩ := transferTo_eq_next h
  rfl

/-- Clearing bit 0 takes the remainder by 2 away (R171). -/
theorem clearBit0_eq_ofNat (v : Word) : v.extractLsb' 1 31 ++ 0#1 = BitVec.ofNat 32 (v.toNat - v.toNat % 2) := by
  apply BitVec.eq_of_toNat_eq
  have := v.isLt
  simp only [BitVec.toNat_append, BitVec.extractLsb'_toNat, BitVec.toNat_ofNat, Nat.shiftLeft_eq,
    Nat.shiftRight_eq_div_pow, Nat.zero_mod, Nat.or_zero, Nat.reducePow]
  omega

/-- The target of `jalr` in integer arithmetic, for both settings of `JALR_CLEARS_BIT0` (R171). -/
theorem jalrTarget_eq_nextPc (s : State) (rd rs1 : Reg) (imm : BitVec 12) :
    jalrTarget s rs1 imm = nextPc (.jalr rd rs1 imm) s := by
  simp only [jalrTarget, nextPc, ← effectiveAddress_eq_ofInt]
  unfold effectiveAddress
  split
  · exact clearBit0_eq_ofNat _
  · rw [BitVec.ofNat_toNat, BitVec.setWidth_eq]

/-- Settles O32: the branches and the jumps one by one, all others by `exec_pc_of_sequential`. -/
theorem pcGoesWhereTheRuleSays : Obligations.PcGoesWhereTheRuleSays := by
  intro s t i h
  cases i with
  | beq | bne => exact branchWhen_pc _ (by simp) h
  | blt | bge => exact branchWhen_pc _ (by simp [ltSigned]) h
  | bltu | bgeu => exact branchWhen_pc _ (by simp [ltUnsigned]) h
  | jal rd off => exact (jumpAndLink_pc h).trans (jumpTarget_eq_ofInt s off)
  | jalr rd rs1 imm => exact (jumpAndLink_pc h).trans (jalrTarget_eq_nextPc s rd rs1 imm)
  | lb | lh | lw | lbu | lhu | sb | sh | sw
  | addi | slli | slti | sltiu | xori | srli | srai | ori | andi | auipc | lui
  | add | sub | sll | slt | sltu | xor | srl | sra | or | and =>
    exact exec_pc_of_sequential (by simp [kindOf]) (by simp [kindOf]) h

/-! ### What an instruction does to the registers -/

/-- A register that is not the instruction's `rd` reads as before (R20). -/
theorem exec_keeps_reg {i : Instr} {s t : State} (h : exec i s = .next t) {r : Reg} (hr : destOf i ≠ some r) :
    t.readReg r = s.readReg r := by
  rcases exec_eq_next h with ⟨w, rd, v, n, -, hdest, rfl⟩ | ⟨w, a, v, -, -, -, -, rfl⟩ | ⟨rd, v, -, hdest, rfl⟩ |
    ⟨-, -, rfl | ⟨a, -, rfl⟩⟩ | ⟨rd, -, hdest, a, -, rfl⟩
  · exact State.readReg_writeReg_ne _ v fun he => hr (he ▸ hdest) -- a load
  · exact State.readReg_congr (by simp) r -- a store
  · exact State.readReg_writeReg_ne s v fun he => hr (he ▸ hdest) -- arithmetic
  · rfl -- a branch not taken
  · rfl -- a branch taken
  · exact State.readReg_writeReg_ne s _ fun he => hr (he ▸ hdest) -- a jump

/-- Settles O33: the frame of every instruction, and that `x0` reads zero in any state. -/
theorem onlyDestinationChanges : Obligations.OnlyDestinationChanges :=
  fun _ t _ h => ⟨fun _ hr => exec_keeps_reg h hr, t.readReg_zero⟩

/-- The outcome with the registers put back to those of `s`: a completed instruction whose result is discarded. -/
def discardResult (s : State) : Result State → Result State
  | .next t => .next { t with regs := s.regs }
  | .fault f => .fault f
  | .refused q => .refused q

/-- Putting the registers back undoes a register write. -/
theorem State.writeReg_regs_restored {s t : State} (h : s.regs = t.regs) (r : Reg) (v : Word) :
    { s.writeReg r v with regs := t.regs } = s := by
  unfold State.writeReg
  split <;> rw [← h]

/-- An arithmetic result for `x0` is computed and discarded (R22). -/
theorem putResult_zero (s : State) (rd : Reg) (v : Word) :
    putResult s 0 v = discardResult s (putResult s rd v) := by
  have hundo := State.writeReg_regs_restored (rfl : s.regs = s.regs) rd v
  simp only [putResult, discardResult, State.writeReg_zero]
  exact congrArg (fun u => Host.Outcome.next (State.advance u)) hundo.symm

/-- A load to `x0` makes its access, faults and draws included (R22, R90). -/
theorem loadInto_zero (s : State) (w : Width) (widen : Word → Word) (rd rs1 : Reg) (imm : BitVec 12) :
    loadInto s w widen 0 rs1 imm = discardResult s (loadInto s w widen rd rs1 imm) := by
  unfold loadInto
  cases hread : memRead s (effectiveAddress s rs1 imm) w with
  | next p =>
    obtain ⟨v, s'⟩ := p
    obtain ⟨-, -, -, hs'⟩ := memRead_eq_next hread
    have hundo := State.writeReg_regs_restored (s := s') (t := s) (by rw [hs']) rd (widen v)
    exact congrArg (fun u => Host.Outcome.next (State.advance u)) hundo.symm
  | fault f => rfl
  | refused q => rfl

/-- A jump that links to `x0` goes to the same target, which it checks as any other (R22, R170). -/
theorem jumpAndLink_zero (s : State) (rd : Reg) (target : Word) :
    jumpAndLink s 0 target = discardResult s (jumpAndLink s rd target) := by
  have hundo := State.writeReg_regs_restored (rfl : s.regs = s.regs) rd (linkValue s)
  unfold jumpAndLink transferTo
  split
  · exact congrArg (fun u => Host.Outcome.next (State.setPc u target)) hundo.symm
  · rfl

/-- With `x0` for its `rd` an instruction does all it does but the register write (R22). -/
theorem exec_toX0 {i : Instr} {rd : Reg} (s : State) (hdest : destOf i = some rd) :
    exec (toX0 i) s = discardResult s (exec i s) := by
  rcases exec_shape i s with ⟨w, widen, r, rs1, imm, -, -, hexec, hx0⟩ | ⟨w, rs2, rs1, imm, -, hnone, -⟩ |
    ⟨r, v, -, -, hexec, hx0⟩ | ⟨cond, off, -, hnone, -⟩ | ⟨r, target, -, -, hexec, hx0⟩
  · rw [hexec, hx0]; exact loadInto_zero s w widen r rs1 imm
  · rw [hnone] at hdest; cases hdest
  · rw [hexec, hx0]; exact putResult_zero s r v
  · rw [hnone] at hdest; cases hdest
  · rw [hexec, hx0]; exact jumpAndLink_zero s r target

/-- Settles O34: the form with `x0` ends as the instruction does, with the registers put back. -/
theorem writeToX0Discarded : Obligations.WriteToX0Discarded := by
  intro s i rd hdest
  rw [exec_toX0 s hdest]
  refine ⟨fun t ht => by rw [ht]; rfl, fun f hf => by rw [hf]; rfl, fun t ht => ?_⟩
  cases hexec : exec i s with
  | next u =>
    rw [hexec] at ht
    cases ht
    exact ⟨rfl, u, rfl⟩
  | fault f => rw [hexec] at ht; cases ht
  | refused q => rw [hexec] at ht; cases ht

end Sys2Proof.Machine

/-! ### R53 (b): each plain byte holds what the most recent store to it wrote -/

namespace Sys2Proof.Machine

open Sys2Proof.Config

/-- A recorded aligned store wrote the bytes from its address up (R43, R45). -/
theorem storeCovers_iff {e : StoreEvent} (ha : e.addr.toNat % widthBytes e.width = 0) (x : Nat) :
    storeCovers x e = true ↔ e.addr.toNat ≤ x ∧ x < e.addr.toNat + widthBytes e.width := by
  rw [← mem_accessBytes (aligned_iff.mpr ha), storeCovers, List.contains_iff_mem]

/-- The most recent store to a byte is the last recorded one if that wrote the byte, else the one before it. -/
theorem lastStore_append (l : List StoreEvent) (e : StoreEvent) (x : Nat) :
    lastStore (l ++ [e]) x = if storeCovers x e = true then some e else lastStore l x := by
  unfold lastStore
  rw [List.reverse_append, List.reverse_singleton, List.singleton_append, List.find?_cons]
  cases storeCovers x e <;> rfl

/-- R53 (b) looks at the bytes, the map, `INIT_MEM` and the record alone. -/
theorem HoldsLatestStores.of_same_memory {s t : State} (h : HoldsLatestStores s) (hparams : t.params = s.params)
    (hmem : t.mem = s.mem) (hstores : t.stores = s.stores) : HoldsLatestStores t := by
  intro x hx
  rw [State.isDevice_congr hparams] at hx
  rw [hmem, hstores, hparams]
  exact h x hx

/-- A store keeps R53 (b): a plain byte it wrote has the store as its most recent one, any other its earlier one. -/
theorem HoldsLatestStores.of_storedIn {s t : State} {a : Word} {w : Width} {v : Word} (h : HoldsLatestStores s)
    (hparams : t.params = s.params) (hst : StoredIn s t a w v) : HoldsLatestStores t := by
  intro x hx
  rw [State.isDevice_congr hparams] at hx
  have hcovers := storeCovers_iff (e := ⟨a, w, widthValue w v⟩) hst.aligned x
  rw [hst.listed, hst.stores, lastStore_append]
  by_cases hin : a.toNat ≤ x ∧ x < a.toNat + widthBytes w
  · obtain ⟨hlow, hhigh⟩ := hin
    rw [if_pos ⟨hlow, hhigh, hx⟩, if_pos (hcovers.mpr ⟨hlow, hhigh⟩)]
    exact congrArg some (by rw [← leByte_eq_ofNat, leByte_widthValue w v (Nat.sub_lt_left_of_lt_add hlow hhigh)])
  · rw [if_neg fun hall => hin ⟨hall.1, hall.2.1⟩, if_neg (mt hcovers.mp hin), hparams]
    exact h x hx

/-- Settles O43: a step leaves memory and the record alone, or it stores, and it never changes `INIT_MEM`. -/
theorem stepKeepsLatestStores : Obligations.StepKeepsLatestStores := by
  intro s t hholds hstep
  have hparams := stepKeepsParams s t hstep
  rcases step_keeps_or_stores hstep with ⟨hmem, hstores⟩ | ⟨a, w, v, hstored⟩
  · exact hholds.of_same_memory hparams hmem hstores
  · exact hholds.of_storedIn hparams hstored

end Sys2Proof.Machine

/-! ### A byte without a permission is invisible -/

namespace Sys2Proof.Machine

open Sys2Proof.Config

/-- The state with another list of bytes in its memory, and all else as it was. -/
def State.withMem (s : State) (m : Memory) : State := { s with mem := m }

@[simp] theorem State.withMem_mem (s : State) (m : Memory) : (s.withMem m).mem = m := rfl
@[simp] theorem State.withMem_regs (s : State) (m : Memory) : (s.withMem m).regs = s.regs := rfl
@[simp] theorem State.withMem_pc (s : State) (m : Memory) : (s.withMem m).pc = s.pc := rfl
@[simp] theorem State.withMem_params (s : State) (m : Memory) : (s.withMem m).params = s.params := rfl
@[simp] theorem State.withMem_stores (s : State) (m : Memory) : (s.withMem m).stores = s.stores := rfl
@[simp] theorem State.withMem_draws (s : State) (m : Memory) : (s.withMem m).draws = s.draws := rfl

theorem State.withMem_writeReg (s : State) (m : Memory) (r : Reg) (v : Word) :
    (s.withMem m).writeReg r v = (s.writeReg r v).withMem m := by
  unfold State.writeReg; split <;> rfl

theorem State.byteAt_withMem {s : State} {m : Memory} {x : Nat} (h : m.get? x = s.mem.get? x) :
    (s.withMem m).byteAt x = s.byteAt x := by
  simp [State.byteAt, h]

/-- The fetch reads `INIT_MEM` or memory, so it reads an address alike where both lists agree (R55). -/
theorem State.codeByteAt_withMem {s : State} {m : Memory} {x : Nat} (h : m.get? x = s.mem.get? x) :
    (s.withMem m).codeByteAt x = s.codeByteAt x := by
  have hcode : (s.withMem m).codeMemory.get? x = s.codeMemory.get? x := by
    unfold State.codeMemory
    rw [State.withMem_params]
    cases s.params.fetchSeesStores
    · exact h
    · rfl
    · exact h
  simp [State.codeByteAt, hcode]

/-- A load reads the same bytes and draws from both memories where they agree on its addresses (R44). -/
theorem State.loadBytes_withMem {s : State} {m : Memory} {l : List Nat} (h : ∀ x ∈ l, m.get? x = s.mem.get? x) :
    (s.withMem m).loadBytes l = ((s.loadBytes l).1, (s.loadBytes l).2.withMem m) := by
  induction l generalizing s with
  | nil => rfl
  | cons x rest ih =>
    have hfirst : (s.withMem m).loadByte x = ((s.loadByte x).1, (s.loadByte x).2.withMem m) := by
      have hdev : (s.withMem m).isDevice x = s.isDevice x := rfl
      simp only [State.loadByte, hdev, State.byteAt_withMem (h x List.mem_cons_self)]
      split <;> rfl
    have hmem : (s.loadByte x).2.mem = s.mem := by unfold State.loadByte; split <;> rfl
    have hrest := ih (s := (s.loadByte x).2) fun y hy => by rw [hmem]; exact h y (List.mem_cons_of_mem _ hy)
    simp [State.loadBytes, hfirst, hrest]

/-- So does a fetch (R46). -/
theorem State.fetchBytes_withMem {s : State} {m : Memory} {l : List Nat} (h : ∀ x ∈ l, m.get? x = s.mem.get? x) :
    (s.withMem m).fetchBytes l = ((s.fetchBytes l).1, (s.fetchBytes l).2.withMem m) := by
  induction l generalizing s with
  | nil => rfl
  | cons x rest ih =>
    have hfirst : (s.withMem m).fetchByte x = ((s.fetchByte x).1, (s.fetchByte x).2.withMem m) := by
      have hdev : (s.withMem m).isDevice x = s.isDevice x := rfl
      simp only [State.fetchByte, hdev, State.codeByteAt_withMem (h x List.mem_cons_self)]
      split <;> rfl
    have hmem : (s.fetchByte x).2.mem = s.mem := by unfold State.fetchByte; split <;> rfl
    have hrest := ih (s := (s.fetchByte x).2) fun y hy => by rw [hmem]; exact h y (List.mem_cons_of_mem _ hy)
    simp [State.fetchBytes, hfirst, hrest]

/-- A `MemRead` that answers reads readable bytes only, so it answers the same from any memory that has them (R44). -/
theorem memRead_withMem {s s' : State} {m : Memory} {a v : Word} {w : Width}
    (hm : ∀ x, s.readable x = true → m.get? x = s.mem.get? x) (h : memRead s a w = .next (v, s')) :
    memRead (s.withMem m) a w = .next (v, s'.withMem m) := by
  obtain ⟨ha, hr, rfl, hs'⟩ := memRead_eq_next h
  have hall : (accessBytes a w).all (s.withMem m).readable = true := List.all_eq_true.mpr hr
  have hbytes := State.loadBytes_withMem fun x hx => hm x (hr x hx)
  unfold memRead
  simp [ha, hall, hbytes, State.loadBytes_state, hs']

/-- A fetch that answers reads executable bytes only (R46). -/
theorem fetch_withMem {s s' : State} {m : Memory} {w : Word}
    (hm : ∀ x, s.executable x = true → m.get? x = s.mem.get? x) (h : fetch s = .next (w, s')) :
    fetch (s.withMem m) = .next (w, s'.withMem m) := by
  obtain ⟨hx, hc, rfl, hs'⟩ := fetch_eq_next h
  have hall : (accessBytes s.pc .word).all (s.withMem m).executable = true := List.all_eq_true.mpr hx
  have hcode : (s.withMem m).refusedCode = none := hc
  have hbytes := State.fetchBytes_withMem fun x hx' => hm x (hx x hx')
  unfold fetch
  simp [hall, hcode, hbytes, State.fetchBytes_state, hs']

/-- A load that completes does so from any memory that has the readable bytes, and leaves that memory (R100). -/
theorem loadInto_withMem {s t : State} {m : Memory} {w : Width} {widen : Word → Word} {rd rs1 : Reg}
    {imm : BitVec 12} (hm : ∀ x, s.readable x = true → m.get? x = s.mem.get? x)
    (h : loadInto s w widen rd rs1 imm = .next t) :
    loadInto (s.withMem m) w widen rd rs1 imm = .next (t.withMem m) := by
  obtain ⟨⟨v, s'⟩, hread, hwrite⟩ := andThen_eq_next h
  have hread' : memRead (s.withMem m) (effectiveAddress (s.withMem m) rs1 imm) w = .next (v, s'.withMem m) :=
    memRead_withMem hm hread
  cases hwrite
  simp only [loadInto, hread', andThen_next, State.withMem_writeReg]
  rfl

/-- An arithmetic result does not look at memory. -/
theorem putResult_withMem {s t : State} (m : Memory) {rd : Reg} {v : Word} (h : putResult s rd v = .next t) :
    putResult (s.withMem m) rd v = .next (t.withMem m) := by
  cases h
  rw [putResult, State.withMem_writeReg]
  rfl

/-- Nor does a transfer of control. -/
theorem transferTo_withMem {s t onward : State} (m : Memory) {target : Word}
    (h : transferTo s target onward = .next t) :
    transferTo (s.withMem m) target (onward.withMem m) = .next (t.withMem m) := by
  obtain ⟨ha, rfl⟩ := transferTo_eq_next h
  rw [transferTo, if_pos (aligned_iff.mpr ha)]
  rfl

theorem branchWhen_withMem {s t : State} (m : Memory) {c : Bool} {off : BitVec 13}
    (h : branchWhen s c off = .next t) : branchWhen (s.withMem m) c off = .next (t.withMem m) := by
  cases c with
  | true => exact transferTo_withMem m h
  | false => cases h; rfl

theorem jumpAndLink_withMem {s t : State} (m : Memory) {rd : Reg} {target : Word}
    (h : jumpAndLink s rd target = .next t) : jumpAndLink (s.withMem m) rd target = .next (t.withMem m) := by
  unfold jumpAndLink
  rw [State.withMem_writeReg]
  exact transferTo_withMem m h

/-- An instruction that is no store completes alike from two memories with the same readable bytes. -/
theorem exec_withMem_of_not_store {i : Instr} {s t : State} {m : Memory} (hkind : ∀ w, kindOf i ≠ .store w)
    (hm : ∀ x, s.readable x = true → m.get? x = s.mem.get? x) (h : exec i s = .next t) :
    exec i (s.withMem m) = .next (t.withMem m) := by
  cases i with
  | lb | lh | lw | lbu | lhu => exact loadInto_withMem hm h
  | sb | sh | sw => exact absurd rfl (hkind _)
  | beq | bne | blt | bge | bltu | bgeu => exact branchWhen_withMem m h
  | jal | jalr => exact jumpAndLink_withMem m h
  | addi | slli | slti | sltiu | xori | srli | srai | ori | andi | auipc | lui
  | add | sub | sll | slt | sltu | xor | srl | sra | or | and => exact putResult_withMem m h

/-- An instruction that is no store leaves memory alone (R31). -/
theorem exec_keeps_mem_of_not_store {i : Instr} {s t : State} (hkind : ∀ w, kindOf i ≠ .store w)
    (h : exec i s = .next t) : t.mem = s.mem := by
  rcases exec_eq_next h with ⟨w, rd, v, n, -, -, rfl⟩ | ⟨w, addr, v, hstore, -, -, -, -⟩ | ⟨rd, v, -, -, rfl⟩ |
    ⟨-, -, rfl | ⟨a, -, rfl⟩⟩ | ⟨rd, -, -, a, -, rfl⟩
  · simp -- a load
  · exact absurd hstore (hkind w)
  · simp -- arithmetic
  · rfl -- a branch not taken
  · rfl -- a branch taken
  · simp -- a jump

/-- `m'` lists `b` at `a`, and at every other address what `m` lists. -/
structure Memory.DiffersAt (a : Nat) (b : Byte) (m m' : Memory) : Prop where
  others : ∀ x, x ≠ a → m'.get? x = m.get? x
  hidden : m'.get? a = some b

theorem Memory.differsAt_set (m : Memory) (a : Nat) (b : Byte) : m.DiffersAt a b (m.set a b) where
  others _ hx := Memory.get?_set_ne m b hx
  hidden := Memory.get?_set_self m a b

/-- A state with the other fields of `s` is `s` with another memory. -/
theorem State.eq_withMem {s u : State} (hregs : u.regs = s.regs) (hpc : u.pc = s.pc) (hparams : u.params = s.params)
    (hstores : u.stores = s.stores) (hdraws : u.draws = s.draws) : u = s.withMem u.mem := by
  cases u
  cases s
  simp_all [State.withMem]

/-- A store writes the same bytes over both memories, and never the byte it has no permission for (R45). -/
theorem storeFrom_withMem {s t : State} {m : Memory} {a : Nat} {b : Byte} {w : Width} {rs2 rs1 : Reg}
    {imm : BitVec 12} (ha : s.writable a = false) (hm : s.mem.DiffersAt a b m)
    (h : storeFrom s w rs2 rs1 imm = .next t) :
    ∃ m', storeFrom (s.withMem m) w rs2 rs1 imm = .next (t.withMem m') ∧ t.mem.DiffersAt a b m' := by
  obtain ⟨s', hwrite, hadvance⟩ := andThen_eq_next h
  obtain ⟨haligned, hwritable, rfl⟩ := memWrite_eq_next hwrite
  cases hadvance
  generalize hp : effectiveAddress s rs1 imm = p at *
  generalize hv : s.readReg rs2 = v at *
  have hlist := State.get?_storeBytes s (v := v) haligned _ le_rfl
  have hlist' := State.get?_storeBytes (s.withMem m) (v := v) haligned _ le_rfl
  have hout : ¬(p.toNat ≤ a ∧ a < p.toNat + widthBytes w) := fun hin => by
    rw [hwritable a ((mem_accessBytes haligned).mpr hin)] at ha
    cases ha
  refine ⟨((s.withMem m).storeBytes p v (widthBytes w)).mem, ?_, fun x hx => ?_, ?_⟩
  · have hall : (accessBytes p w).all (s.withMem m).writable = true := List.all_eq_true.mpr hwritable
    have hp' : effectiveAddress (s.withMem m) rs1 imm = p := hp
    have hv' : (s.withMem m).readReg rs2 = v := hv
    have hstate := State.eq_withMem (s := s.storeBytes p v (widthBytes w))
      (u := (s.withMem m).storeBytes p v (widthBytes w)) (by simp) (by simp) (by simp) (by simp) (by simp)
    rw [storeFrom, hp', hv', memWrite, haligned, hall, hstate]
    rfl
  · exact (hlist' x).trans (.trans (by rw [State.withMem_mem, hm.others x hx]; rfl) (hlist x).symm)
  · exact (hlist' a).trans (.trans (if_neg fun hin => hout ⟨hin.1, hin.2.1⟩) hm.hidden)

/-- An instruction that completes does so whatever an inaccessible byte holds, and leaves that byte alone (R44, R45). -/
theorem exec_withMem {i : Instr} {s t : State} {m : Memory} {a : Nat} {b : Byte} (hr : s.readable a = false)
    (hw : s.writable a = false) (hm : s.mem.DiffersAt a b m) (h : exec i s = .next t) :
    ∃ m', exec i (s.withMem m) = .next (t.withMem m') ∧ t.mem.DiffersAt a b m' := by
  by_cases hkind : ∃ w, kindOf i = .store w
  · cases i with
    | sb | sh | sw => exact storeFrom_withMem hw hm h
    | _ => simp [kindOf] at hkind
  · have hnot : ∀ w, kindOf i ≠ .store w := fun w hw => hkind ⟨w, hw⟩
    have hreadable : ∀ x, s.readable x = true → m.get? x = s.mem.get? x := fun x hx =>
      hm.others x fun he => by rw [he, hr] at hx; cases hx
    exact ⟨m, exec_withMem_of_not_store hnot hreadable h, by rwa [exec_keeps_mem_of_not_store hnot h]⟩

/-- Settles O48: the fetch reads executable bytes only, and the instruction passes the byte by. -/
theorem inaccessibleByteIsInvisible : Obligations.InaccessibleByteIsInvisible := by
  intro s t a b hr hw hx hstep
  obtain ⟨word, s', i, hfetch, hdecode, hexec⟩ := step_eq_next hstep
  have hm := s.mem.differsAt_set a b
  have hfetch' := fetch_withMem (fun x hx' => hm.others x fun he => by rw [he, hx] at hx'; cases hx') hfetch
  have hparams := fetch_keeps_params hfetch
  have hmem : s'.mem = s.mem := by obtain ⟨-, -, -, rfl⟩ := fetch_eq_next hfetch; rfl
  have hm' : s'.mem.DiffersAt a b (s.mem.set a b) := by rw [hmem]; exact hm
  obtain ⟨m', hexec', hafter⟩ := exec_withMem ((State.readable_congr hparams a).trans hr)
    ((State.writable_congr hparams a).trans hw) hm' hexec
  refine ⟨t.withMem m', (step_of_fetch hfetch' hdecode).trans hexec', rfl, rfl, rfl, rfl, rfl, ?_, fun x hne => ?_⟩
  · simp [State.byteAt, hafter.hidden]
  · exact State.byteAt_withMem (hafter.others x hne)

end Sys2Proof.Machine

/-! ### Loads -/

namespace Sys2Proof.Machine

open Sys2Proof.Config

/-- The bytes of an aligned access stand from its address up, with no wrap (R43, R51). -/
theorem accessBytes_of_aligned {a : Word} {w : Width} (ha : aligned a w = true) :
    accessBytes a w = (List.range (widthBytes w)).map (a.toNat + ·) :=
  List.map_congr_left fun _ hk => byteAddr_of_aligned ha (List.mem_range.mp hk)

/-- What holds of each byte of an aligned access. -/
theorem forall_mem_accessBytes {a : Word} {w : Width} (ha : aligned a w = true) {P : Nat → Prop} :
    (∀ x ∈ accessBytes a w, P x) ↔ ∀ k, k < widthBytes w → P (a.toNat + k) := by
  simp [accessBytes_of_aligned ha]

/-- A byte access is aligned at any address (R43). -/
theorem aligned_byte (a : Word) : aligned a .byte = true := aligned_iff.mpr (Nat.mod_one _)

theorem accessBytes_byte (a : Word) : accessBytes a .byte = [a.toNat] :=
  accessBytes_of_aligned (aligned_byte a)

theorem accessBytes_half {a : Word} (ha : a.toNat % 2 = 0) : accessBytes a .half = [a.toNat, a.toNat + 1] :=
  accessBytes_of_aligned (aligned_iff.mpr ha)

/-- What a load of `v` to `rd` that read the bytes at `l` leaves of `s`: `rd`, `pc` and the draws (R49, R100). -/
structure Loaded (s t : State) (rd : Reg) (v : Word) (l : List Nat) : Prop where
  writes : WritesReg s t rd v
  pc : PcAdvanced s t
  bytes : ∀ x, t.byteAt x = s.byteAt x
  params : t.params = s.params
  stores : t.stores = s.stores
  draws : t.draws = s.draws + (l.filter s.isDevice).length

/-- A register write after an operation that leaves the registers alone (R20, R22). -/
theorem writesReg_writeReg {s s' t : State} {rd : Reg} {v : Word} (ht : t.regs = (s'.writeReg rd v).regs)
    (hs : s'.regs = s.regs) : WritesReg s t rd v where
  result := (State.readReg_congr ht rd).trans (State.readReg_writeReg_self s' rd v)
  others r hr := by rw [State.readReg_congr ht, State.readReg_writeReg_ne s' v hr, State.readReg_congr hs]

/-- `pc + 4`, as the frames say it (R25, R27). -/
theorem pcAdvanced_of_eq {s t : State} (h : t.pc = s.pc + 4#32) : PcAdvanced s t := by
  unfold PcAdvanced
  rw [h, BitVec.toNat_add]
  rfl

/-- `MemRead` of an aligned, readable access answers (R44). -/
theorem memRead_of_readable {s : State} {a : Word} {w : Width} (ha : aligned a w = true)
    (hr : ∀ x ∈ accessBytes a w, s.readable x = true) :
    memRead s a w = .next (leWord (s.loadBytes (accessBytes a w)).1, (s.loadBytes (accessBytes a w)).2) := by
  have hall : (accessBytes a w).all s.readable = true := List.all_eq_true.mpr hr
  simp [memRead, ha, hall]

/-- A load of an aligned, readable access completes (R100). -/
theorem loadInto_of_readable {s : State} {w : Width} (widen : Word → Word) (rd : Reg) {rs1 : Reg} {imm : BitVec 12}
    {a : Word} (hea : a = effectiveAddress s rs1 imm) (ha : a.toNat % widthBytes w = 0)
    (hr : ∀ k, k < widthBytes w → s.readable (a.toNat + k) = true) :
    ∃ t, loadInto s w widen rd rs1 imm = .next t ∧
      Loaded s t rd (widen (leWord (s.loadBytes (accessBytes a w)).1)) (accessBytes a w) := by
  have haligned := aligned_iff.mpr ha
  have hread := memRead_of_readable haligned ((forall_mem_accessBytes haligned).mpr hr)
  refine ⟨_, by rw [loadInto, ← hea, hread]; rfl, ?_⟩
  rw [State.loadBytes_state]
  exact ⟨writesReg_writeReg (State.advance_regs _) rfl, pcAdvanced_of_eq (by simp), State.byteAt_congr (by simp),
    by simp, by simp, by simp⟩

/-- Counting the device bytes of an aligned access (R49). -/
theorem length_filter_accessBytes {a : Word} {w : Width} (ha : a.toNat % widthBytes w = 0) (p : Nat → Bool) :
    ((accessBytes a w).filter p).length = (List.range (widthBytes w)).countP fun k => p (a.toNat + k) := by
  rw [← List.countP_eq_length_filter, accessBytes_of_aligned (aligned_iff.mpr ha), List.countP_map]
  rfl

/-- Settles O16: the five loads are `loadInto` with one width and one widening each. -/
theorem loadsCompleteWhenReadable : Obligations.LoadsCompleteWhenReadable := by
  intro s i w rd rs1 imm hkind hi ha hr
  have hload : ∃ widen, exec i s = loadInto s w widen rd rs1 imm := by
    simp only [List.mem_cons, List.not_mem_nil, or_false] at hi
    rcases hi with rfl | rfl | rfl | rfl | rfl <;> cases hkind <;> exact ⟨_, rfl⟩
  obtain ⟨widen, hexec⟩ := hload
  obtain ⟨t, ht, hloaded⟩ := loadInto_of_readable widen rd rfl ha hr
  exact ⟨t, hexec.trans ht, hloaded.writes.others, hloaded.pc, hloaded.bytes, hloaded.params, hloaded.stores,
    hloaded.draws.trans (by rw [length_filter_accessBytes ha])⟩

/-- A load of plain memory yields the widened word of its bytes (R41, R44, R100). -/
theorem yields_of_plain {s : State} {i : Instr} {w : Width} {widen : Word → Word} {rd rs1 : Reg} {imm : BitVec 12}
    {a : Word} {P : Word → Prop} (hexec : exec i s = loadInto s w widen rd rs1 imm)
    (hea : a = effectiveAddress s rs1 imm) (ha : a.toNat % widthBytes w = 0) (hr : PlainReadable s a (widthBytes w))
    (hP : P (widen (leWord ((accessBytes a w).map s.byteAt)))) : Yields i s rd P := by
  obtain ⟨t, ht, hloaded⟩ := loadInto_of_readable widen rd hea ha fun k hk => (hr k hk).1
  have hplain : ∀ x ∈ accessBytes a w, s.isDevice x = false :=
    (forall_mem_accessBytes (aligned_iff.mpr ha)).mpr fun k hk => (hr k hk).2
  have hnone : (accessBytes a w).filter s.isDevice = [] := List.filter_eq_nil_iff.mpr (by simpa using hplain)
  have hvalue := hloaded.writes
  rw [State.loadBytes_plain s _ hplain] at hvalue
  exact ⟨t, _, hexec.trans ht, hP, hvalue, hloaded.pc, hloaded.bytes, hloaded.params, hloaded.stores,
    hloaded.draws.trans (by rw [hnone]; rfl)⟩

/-! #### The values of the five loads -/

theorem signExtendByte_toInt (b : Byte) : (signExtendByte (leWord [b])).toInt = b.toInt := by
  rw [signExtendByte, leWord_one, BitVec.toInt_signExtend_of_le (by decide)]

theorem zeroExtendByte_toNat (b : Byte) : (zeroExtendByte (leWord [b])).toNat = b.toNat := by
  rw [zeroExtendByte, leWord_one, BitVec.toNat_setWidth_of_le (by decide)]

theorem signExtendHalf_toInt (b c : Byte) : (signExtendHalf (leWord [b, c])).toInt = (c ++ b).toInt := by
  rw [signExtendHalf, leWord_two, BitVec.toInt_signExtend_of_le (by decide)]

/-- Putting a byte below other bits adds it to their multiple by 256 (R41). -/
theorem append_byte_toNat {n : Nat} (c : BitVec n) (b : Byte) : (c ++ b).toNat = b.toNat + 256 * c.toNat := by
  rw [BitVec.toNat_append, ← Nat.shiftLeft_add_eq_or_of_lt b.isLt, Nat.shiftLeft_eq]
  omega

theorem zeroExtendHalf_toNat (b c : Byte) : (zeroExtendHalf (leWord [b, c])).toNat = b.toNat + 256 * c.toNat := by
  rw [zeroExtendHalf, leWord_two, BitVec.toNat_setWidth_of_le (by decide), append_byte_toNat]

theorem leWord_four_toNat (b c d e : Byte) :
    (leWord [b, c, d, e]).toNat = b.toNat + 256 * c.toNat + 65536 * d.toNat + 16777216 * e.toNat := by
  rw [leWord_four, append_byte_toNat, append_byte_toNat, append_byte_toNat]
  omega

/-- Settles O13: the two widenings of one byte. -/
theorem loadByteExtends : Obligations.LoadByteExtends := by
  intro s rd rs1 imm hr
  refine ⟨yields_of_plain (w := .byte) rfl rfl (Nat.mod_one _) hr ?_,
    yields_of_plain (w := .byte) rfl rfl (Nat.mod_one _) hr ?_⟩ <;> rw [accessBytes_byte]
  · exact signExtendByte_toInt _
  · exact zeroExtendByte_toNat _

/-- Settles O14: the two widenings of two bytes. -/
theorem loadHalfExtends : Obligations.LoadHalfExtends := by
  rintro s rd rs1 imm a rfl ha hr
  refine ⟨yields_of_plain (w := .half) rfl rfl ha hr ?_, yields_of_plain (w := .half) rfl rfl ha hr ?_⟩ <;>
    rw [accessBytes_half ha]
  · exact signExtendHalf_toInt _ _
  · exact zeroExtendHalf_toNat _ _

/-- Settles O15: four bytes need no widening. -/
theorem loadWordAssembles : Obligations.LoadWordAssembles := by
  rintro s rd rs1 imm a rfl ha hr
  refine yields_of_plain (w := .word) rfl rfl ha hr ?_
  rw [accessBytes_word ha]
  exact leWord_four_toNat _ _ _ _

/-- Reading one device byte is one draw (R49). -/
theorem State.loadBytes_device {s : State} {a : Nat} (h : s.isDevice a = true) :
    (s.loadBytes [a]).1 = [deviceByte s.stores s.draws a] := by
  simp [State.loadBytes, State.loadByte, State.drawByte, h]

/-- A byte load of a device loads a draw, widened (R49, R100). -/
theorem loadInto_byte_of_device {s : State} (widen : Word → Word) (rd : Reg) {rs1 : Reg} {imm : BitVec 12} {a : Word}
    (hea : a = effectiveAddress s rs1 imm) (hr : s.readable a.toNat = true) (hd : s.isDevice a.toNat = true) :
    ∃ t, loadInto s .byte widen rd rs1 imm = .next t ∧
      WritesReg s t rd (widen (leWord [deviceByte s.stores s.draws a.toNat])) ∧ PcAdvanced s t ∧
      t.draws = s.draws + 1 ∧ ∀ x, t.byteAt x = s.byteAt x := by
  have hbyte := (forall_mem_accessBytes (P := fun x => s.readable x = true) (aligned_byte a)).mp
    (by simpa [accessBytes_byte] using hr)
  obtain ⟨t, ht, hloaded⟩ := loadInto_of_readable widen rd hea (Nat.mod_one _) hbyte
  rw [accessBytes_byte, State.loadBytes_device hd] at hloaded
  exact ⟨t, ht, hloaded.writes, hloaded.pc, by simpa [hd] using hloaded.draws, hloaded.bytes⟩

/-- Settles O17: the two widenings of one draw. -/
theorem deviceByteLoadIsDraw : Obligations.DeviceByteLoadIsDraw := by
  rintro s rd rs1 imm a rfl hr hd
  obtain ⟨t, ht, hafter⟩ := loadInto_byte_of_device zeroExtendByte rd rfl hr hd
  obtain ⟨u, hu, hafter'⟩ := loadInto_byte_of_device signExtendByte rd rfl hr hd
  exact ⟨⟨t, _, ht, zeroExtendByte_toNat _, hafter⟩, ⟨u, _, hu, signExtendByte_toInt _, hafter'⟩⟩

/-- What an instruction yields may be described more weakly. -/
theorem Yields.imp {i : Instr} {s : State} {rd : Reg} {P Q : Word → Prop} (h : Yields i s rd P)
    (hPQ : ∀ v, P v → Q v) : Yields i s rd Q := by
  obtain ⟨t, v, hexec, hP, hrest⟩ := h
  exact ⟨t, v, hexec, hPQ v hP, hrest⟩

/-- Settles O45: the load gives the byte memory lists, and that is the latest store's. -/
theorem loadReturnsLatestStore : Obligations.LoadReturnsLatestStore := by
  intro s rd rs1 imm e hholds hr hlast
  obtain ⟨-, hyields⟩ := loadByteExtends s rd rs1 imm hr
  generalize effectiveAddress s rs1 imm = a at *
  obtain ⟨-, hplain⟩ := hr 0 Nat.one_pos
  have hlisted := hholds a.toNat hplain
  rw [hlast] at hlisted
  refine hyields.imp fun v hv => hv.trans ?_
  rw [State.byteAt, hlisted]
  exact BitVec.toNat_ofNat _ _

end Sys2Proof.Machine

/-! ### Faults of loads and stores -/

namespace Sys2Proof.Machine

theorem not_aligned_iff {a : Word} {w : Width} : aligned a w = false ↔ a.toNat % widthBytes w ≠ 0 := by
  rw [← Bool.not_eq_true, aligned_iff]

/-- An aligned access with a byte that lacks a permission does not pass the check of the map (R44, R45). -/
theorem all_accessBytes_eq_false {a : Word} {w : Width} (ha : a.toNat % widthBytes w = 0) {p : Nat → Bool}
    (hx : ∃ k, k < widthBytes w ∧ p (a.toNat + k) = false) : (accessBytes a w).all p = false := by
  obtain ⟨k, hk, hp⟩ := hx
  have hmem := (mem_accessBytes (aligned_iff.mpr ha)).mpr ⟨Nat.le_add_right _ k, Nat.add_lt_add_left hk _⟩
  exact List.all_eq_false.mpr ⟨_, hmem, by simp [hp]⟩

/-- `MemRead` checks alignment first, then the map (R44, R185). -/
theorem memRead_of_misaligned {s : State} {a : Word} {w : Width} (h : a.toNat % widthBytes w ≠ 0) :
    memRead s a w = .fault (.loadAddressMisaligned s.pc a) := by
  simp [memRead, raise, not_aligned_iff.mpr h]

theorem memRead_of_unreadable {s : State} {a : Word} {w : Width} (ha : a.toNat % widthBytes w = 0)
    (hx : ∃ k, k < widthBytes w ∧ s.readable (a.toNat + k) = false) :
    memRead s a w = .fault (.loadAccessFault s.pc a) := by
  simp [memRead, raise, aligned_iff.mpr ha, all_accessBytes_eq_false ha hx]

/-- `MemRead` has no other fault. -/
theorem memRead_eq_fault {s : State} {a : Word} {w : Width} {f : Fault} (h : memRead s a w = .fault f) :
    (aligned a w = false ∧ f = .loadAddressMisaligned s.pc a) ∨ f = .loadAccessFault s.pc a := by
  unfold memRead raise at h
  split at h
  · next hna => cases h; exact .inl ⟨by simpa using hna, rfl⟩
  · split at h
    · cases h; exact .inr rfl
    · cases h

/-- `MemWrite` checks alignment first, then the map (R45, R185). -/
theorem memWrite_of_misaligned {s : State} {a v : Word} {w : Width} (h : a.toNat % widthBytes w ≠ 0) :
    memWrite s a w v = .fault (.storeAddressMisaligned s.pc a) := by
  simp [memWrite, raise, not_aligned_iff.mpr h]

theorem memWrite_of_unwritable {s : State} {a v : Word} {w : Width} (ha : a.toNat % widthBytes w = 0)
    (hx : ∃ k, k < widthBytes w ∧ s.writable (a.toNat + k) = false) :
    memWrite s a w v = .fault (.storeAccessFault s.pc a) := by
  simp [memWrite, raise, aligned_iff.mpr ha, all_accessBytes_eq_false ha hx]

/-- `MemWrite` has no other fault. -/
theorem memWrite_eq_fault {s : State} {a v : Word} {w : Width} {f : Fault} (h : memWrite s a w v = .fault f) :
    (aligned a w = false ∧ f = .storeAddressMisaligned s.pc a) ∨ f = .storeAccessFault s.pc a := by
  unfold memWrite raise at h
  split at h
  · next hna => cases h; exact .inl ⟨by simpa using hna, rfl⟩
  · split at h
    · cases h; exact .inr rfl
    · cases h

/-- A load faults exactly as its `MemRead` does (R100). -/
theorem loadInto_eq_fault_iff {s : State} {w : Width} {widen : Word → Word} {rd rs1 : Reg} {imm : BitVec 12}
    {f : Fault} :
    loadInto s w widen rd rs1 imm = .fault f ↔ memRead s (effectiveAddress s rs1 imm) w = .fault f := by
  constructor <;> intro h
  · rcases andThen_eq_fault h with hread | ⟨p, -, hwrite⟩
    · exact hread
    · cases hwrite
  · rw [loadInto, h, andThen_fault]

/-- A store faults exactly as its `MemWrite` does (R130). -/
theorem storeFrom_eq_fault_iff {s : State} {w : Width} {rs2 rs1 : Reg} {imm : BitVec 12} {f : Fault} :
    storeFrom s w rs2 rs1 imm = .fault f ↔
      memWrite s (effectiveAddress s rs1 imm) w (s.readReg rs2) = .fault f := by
  constructor <;> intro h
  · rcases andThen_eq_fault h with hwrite | ⟨s', -, hadvance⟩
    · exact hwrite
    · cases hadvance
  · rw [storeFrom, h, andThen_fault]

/-- A byte load has no fault but the map's (R43, R44). -/
theorem loadInto_byte_eq_fault {s : State} {widen : Word → Word} {rd rs1 : Reg} {imm : BitVec 12} {f : Fault}
    (h : loadInto s .byte widen rd rs1 imm = .fault f) : f = .loadAccessFault s.pc (effectiveAddress s rs1 imm) := by
  rcases memRead_eq_fault (loadInto_eq_fault_iff.mp h) with ⟨hna, -⟩ | hf
  · rw [aligned_byte] at hna; cases hna
  · exact hf

/-- A byte store has no fault but the map's (R43, R45). -/
theorem storeFrom_byte_eq_fault {s : State} {rs2 rs1 : Reg} {imm : BitVec 12} {f : Fault}
    (h : storeFrom s .byte rs2 rs1 imm = .fault f) : f = .storeAccessFault s.pc (effectiveAddress s rs1 imm) := by
  rcases memWrite_eq_fault (storeFrom_eq_fault_iff.mp h) with ⟨hna, -⟩ | hf
  · rw [aligned_byte] at hna; cases hna
  · exact hf

/-- Settles O18: the alignment check comes first, and a byte access always passes it. -/
theorem misalignedAccessFaults : Obligations.MisalignedAccessFaults := by
  rintro s r rs1 imm a rfl
  refine ⟨fun h => ?_, fun h => ?_, fun f hf => ?_⟩
  · have hread := memRead_of_misaligned (s := s) (w := .half) h
    exact ⟨loadInto_eq_fault_iff.mpr hread, loadInto_eq_fault_iff.mpr hread,
      storeFrom_eq_fault_iff.mpr (memWrite_of_misaligned (w := .half) h)⟩
  · exact ⟨loadInto_eq_fault_iff.mpr (memRead_of_misaligned (w := .word) h),
      storeFrom_eq_fault_iff.mpr (memWrite_of_misaligned (w := .word) h)⟩
  · rcases hf with hlb | hlbu | hsb
    · exact .inl (loadInto_byte_eq_fault hlb)
    · exact .inl (loadInto_byte_eq_fault hlbu)
    · exact .inr (storeFrom_byte_eq_fault hsb)

/-- Settles O19: an aligned access passes the first check and fails the second. -/
theorem unpermittedAccessFaults : Obligations.UnpermittedAccessFaults := by
  rintro s r rs1 imm a rfl
  refine ⟨fun hx => ?_, fun ha hx => ?_, fun ha hx => ?_, fun hx => ?_, fun ha hx => ?_, fun ha hx => ?_⟩
  · have hbyte := Nat.mod_one (effectiveAddress s rs1 imm).toNat
    have hread := memRead_of_unreadable (w := .byte) hbyte ⟨0, Nat.one_pos, hx⟩
    exact ⟨loadInto_eq_fault_iff.mpr hread, loadInto_eq_fault_iff.mpr hread⟩
  · have hread := memRead_of_unreadable (w := .half) ha hx
    exact ⟨loadInto_eq_fault_iff.mpr hread, loadInto_eq_fault_iff.mpr hread⟩
  · exact loadInto_eq_fault_iff.mpr (memRead_of_unreadable (w := .word) ha hx)
  · exact storeFrom_eq_fault_iff.mpr (memWrite_of_unwritable (w := .byte) (Nat.mod_one _) ⟨0, Nat.one_pos, hx⟩)
  · exact storeFrom_eq_fault_iff.mpr (memWrite_of_unwritable (w := .half) ha hx)
  · exact storeFrom_eq_fault_iff.mpr (memWrite_of_unwritable (w := .word) ha hx)

/-- Settles O31: the sum modulo 2^32; the two examples by computing; the space ends at a multiple of every width. -/
theorem addressSumWraps : Obligations.AddressSumWraps := by
  intro s rs1 imm
  refine ⟨?_, fun h => ?_, fun h => ?_, fun w ha => ?_⟩
  · rw [effectiveAddress_eq_ofInt, BitVec.toNat_ofInt, Int.toNat_of_nonneg (Int.emod_nonneg _ (by decide))]
    rfl
  · rw [effectiveAddress, h]; decide
  · rw [effectiveAddress, h]; decide
  · have hlt := (effectiveAddress s rs1 imm).isLt
    have hmod := aligned_iff.mp ha
    cases w <;> simp only [widthBytes] at hmod ⊢ <;> omega

end Sys2Proof.Machine

/-! ### Stores -/

namespace Sys2Proof.Machine

/-- `MemWrite` of an aligned, writable access answers (R45). -/
theorem memWrite_of_writable {s : State} {a v : Word} {w : Width} (ha : aligned a w = true)
    (hw : ∀ x ∈ accessBytes a w, s.writable x = true) :
    memWrite s a w v = .next ((s.storeBytes a v (widthBytes w)).recordStore a w v) := by
  have hall : (accessBytes a w).all s.writable = true := List.all_eq_true.mpr hw
  simp [memWrite, ha, hall]

/-- The recorded value in integer arithmetic (R47). -/
theorem widthValue_eq_ofNat (w : Width) (v : Word) :
    widthValue w v = BitVec.ofNat 32 (v.toNat % 256 ^ widthBytes w) := by
  rw [← widthValue_toNat, BitVec.ofNat_toNat, BitVec.setWidth_eq]

/-- A store of an aligned, writable access completes and writes its bytes (R130). -/
theorem storeWrites_of_writable {s : State} {i : Instr} {w : Width} {rs2 rs1 : Reg} {imm : BitVec 12} {a : Word}
    (hexec : exec i s = storeFrom s w rs2 rs1 imm) (hea : a = effectiveAddress s rs1 imm)
    (ha : a.toNat % widthBytes w = 0) (hw : ∀ k, k < widthBytes w → s.writable (a.toNat + k) = true) :
    StoreWrites i s a w (widthBytes w) (s.readReg rs2) := by
  have haligned := aligned_iff.mpr ha
  have hwritable : ∀ x ∈ accessBytes a w, s.writable x = true := (forall_mem_accessBytes haligned).mpr hw
  have hstored := storedIn_of_checked (s.readReg rs2) haligned hwritable
  have hnext : exec i s =
      .next ((s.storeBytes a (s.readReg rs2) (widthBytes w)).recordStore a w (s.readReg rs2)).advance := by
    rw [hexec, storeFrom, ← hea, memWrite_of_writable haligned hwritable, andThen_next]
  refine ⟨_, hnext, pcAdvanced_of_eq (by simp), State.readReg_congr (by simp), by simp, by simp, ?_, fun x => ?_⟩
  · rw [hstored.stores, widthValue_eq_ofNat]
  · rw [hstored.byteAt, leByte_eq_ofNat]

/-- Settles O20: the three widths. -/
theorem storesWriteTheirBytes : Obligations.StoresWriteTheirBytes := by
  intro s rs2 rs1 imm a hea
  refine ⟨fun hw => ?_, fun ha hw => ?_, fun ha hw => ?_⟩
  · refine storeWrites_of_writable (w := .byte) rfl hea (Nat.mod_one _) fun k hk => ?_
    rwa [Nat.lt_one_iff.mp hk]
  · exact storeWrites_of_writable (w := .half) rfl hea ha hw
  · exact storeWrites_of_writable (w := .word) rfl hea ha hw

/-! ### Accesses of mixed width -/

theorem effectiveAddress_congr {s t : State} (h : t.regs = s.regs) (rs1 : Reg) (imm : BitVec 12) :
    effectiveAddress t rs1 imm = effectiveAddress s rs1 imm := by
  rw [effectiveAddress, effectiveAddress, State.readReg_congr h]

/-- A store that completes stores the data register at the effective address and leaves registers and map alone; both
are read as in any state with the same registers, such as the one before the earlier stores of a sequence (R130). -/
theorem storeFrom_eq_next {s₀ s t : State} {w : Width} {rs2 rs1 : Reg} {imm : BitVec 12} {a : Word}
    (hregs : s.regs = s₀.regs) (hea : effectiveAddress s₀ rs1 imm = a) (h : storeFrom s w rs2 rs1 imm = .next t) :
    StoredIn s t a w (s₀.readReg rs2) ∧ t.regs = s₀.regs ∧ t.params = s.params := by
  obtain ⟨s', hwrite, hadvance⟩ := andThen_eq_next h
  rw [effectiveAddress_congr hregs, hea, State.readReg_congr hregs] at hwrite
  obtain ⟨ha, hw, rfl⟩ := memWrite_eq_next hwrite
  cases hadvance
  exact ⟨storedIn_of_checked _ ha hw, by simpa using hregs, by simp⟩

/-- A plain byte of the store reads back (R45). -/
theorem StoredIn.byteAt_own {s t : State} {a : Word} {w : Width} {v : Word} (h : StoredIn s t a w v) {k : Nat}
    (hk : k < widthBytes w) (hplain : s.isDevice (a.toNat + k) = false) : t.byteAt (a.toNat + k) = leByte v k := by
  rw [h.byteAt, if_pos ⟨Nat.le_add_right _ k, Nat.add_lt_add_left hk _, hplain⟩, Nat.add_sub_cancel_left]

/-- Any other byte is as before (R45). -/
theorem StoredIn.byteAt_other {s t : State} {a : Word} {w : Width} {v : Word} (h : StoredIn s t a w v) {x : Nat}
    (hx : x < a.toNat ∨ a.toNat + widthBytes w ≤ x) : t.byteAt x = s.byteAt x := by
  rw [h.byteAt, if_neg fun hin => by omega]

/-- The addresses just above an aligned word's (R51). -/
theorem toNat_add_ofNat {a : Word} (ha : a.toNat % 4 = 0) {k : Nat} (hk : k < 4) :
    (a + BitVec.ofNat 32 k).toNat = a.toNat + k :=
  byteAddr_of_aligned (w := .word) (aligned_iff.mpr ha) hk

/-- Part of a plain readable range is one, in any state with the same map. -/
theorem PlainReadable.part {s t : State} {a b : Word} {n m k : Nat} (h : PlainReadable s a n)
    (hparams : t.params = s.params) (hb : b.toNat = a.toNat + k) (hkm : k + m ≤ n) : PlainReadable t b m := by
  intro i hi
  rw [State.readable_congr hparams, State.isDevice_congr hparams, hb, Nat.add_assoc]
  exact h (k + i) (by omega)

/-- Byte `k` of a word in integer arithmetic (R41). -/
theorem leByte_toNat (v : Word) (k : Nat) : (leByte v k).toNat = v.toNat / 256 ^ k % 256 := by
  rw [leByte_eq_ofNat, BitVec.toNat_ofNat]

/-- Narrow loads after a `sw` read their bytes of its word (R42). -/
theorem narrow_loads_after_sw {s t : State} {A v : Word} (hr : PlainReadable s A 4)
    (hstored : StoredIn s t A .word v) (hparams : t.params = s.params) :
    (∀ (i : Nat) (rd q : Reg) (j : BitVec 12), i < 4 → effectiveAddress t q j = A + BitVec.ofNat 32 i →
      Yields (.lbu rd q j) t rd fun x => x.toNat = v.toNat / 256 ^ i % 256) ∧
    (∀ (i : Nat) (rd q : Reg) (j : BitVec 12), i < 2 → effectiveAddress t q j = A + BitVec.ofNat 32 (2 * i) →
      Yields (.lhu rd q j) t rd fun x => x.toNat = v.toNat / 65536 ^ i % 65536) := by
  have hA : A.toNat % 4 = 0 := hstored.aligned
  have hbyte : ∀ k, k < 4 → (t.byteAt (A.toNat + k)).toNat = v.toNat / 256 ^ k % 256 := fun k hk => by
    rw [hstored.byteAt_own hk (hr k hk).2, leByte_toNat]
  refine ⟨fun i rd q j hi hea => ?_, fun i rd q j hi hea => ?_⟩
  · have haddr : (effectiveAddress t q j).toNat = A.toNat + i := by rw [hea, toNat_add_ofNat hA hi]
    obtain ⟨-, hyields⟩ := loadByteExtends t rd q j (hr.part hparams haddr (by omega))
    refine hyields.imp fun x hx => hx.trans ?_
    rw [haddr, hbyte i hi]
  · have haddr : (effectiveAddress t q j).toNat = A.toNat + 2 * i := by rw [hea, toNat_add_ofNat hA (by omega)]
    obtain ⟨-, hyields⟩ := loadHalfExtends t rd q j (A.toNat + 2 * i) haddr.symm (by omega)
      (hr.part hparams haddr (by omega))
    refine hyields.imp fun x hx => hx.trans ?_
    rw [hbyte (2 * i) (by omega), Nat.add_assoc, hbyte (2 * i + 1) (by omega), pow_succ, ← Nat.div_div_eq_div_mul,
      pow_mul, show 256 ^ 2 = 65536 from rfl]
    omega

/-- `lw` of four plain bytes whose values are known yields their word (R41). -/
theorem yields_lw_of_bytes {s : State} {rd q : Reg} {j : BitVec 12} {A : Word} (hea : effectiveAddress s q j = A)
    (hA : A.toNat % 4 = 0) (hr : PlainReadable s A 4) {b₀ b₁ b₂ b₃ : Nat} (h₀ : (s.byteAt A.toNat).toNat = b₀)
    (h₁ : (s.byteAt (A.toNat + 1)).toNat = b₁) (h₂ : (s.byteAt (A.toNat + 2)).toNat = b₂)
    (h₃ : (s.byteAt (A.toNat + 3)).toNat = b₃) :
    Yields (.lw rd q j) s rd fun x => x.toNat = b₀ + 256 * b₁ + 65536 * b₂ + 16777216 * b₃ := by
  subst hea h₀ h₁ h₂ h₃
  exact loadWordAssembles s rd q j _ rfl hA hr

/-- What a `sb` to byte `k` of a word of plain memory does, in a sequence of stores that began in `s₀` (R131). -/
theorem sb_to_byte_of_word {s₀ s t : State} {r q : Reg} {j : BitVec 12} {A : Word} {k : Nat} (hA : A.toNat % 4 = 0)
    (hk : k < 4) (hregs : s.regs = s₀.regs) (hr : PlainReadable s A 4)
    (hea : effectiveAddress s₀ q j = A + BitVec.ofNat 32 k) (h : exec (.sb r q j) s = .next t) :
    t.regs = s₀.regs ∧ PlainReadable t A 4 ∧ (t.byteAt (A.toNat + k)).toNat = (s₀.readReg r).toNat % 256 ∧
      ∀ x, x ≠ A.toNat + k → t.byteAt x = s.byteAt x := by
  obtain ⟨hstored, hregs', hparams⟩ := storeFrom_eq_next (w := .byte) hregs hea h
  have haddr := toNat_add_ofNat hA hk
  have hown := hstored.byteAt_own (k := 0) Nat.one_pos (haddr.symm ▸ (hr k hk).2)
  rw [Nat.add_zero, haddr] at hown
  refine ⟨hregs', hr.part (k := 0) hparams rfl le_rfl, by rw [hown, leByte_toNat, pow_zero, Nat.div_one], ?_⟩
  intro x hx
  exact hstored.byteAt_other (by rw [haddr]; exact Nat.lt_or_gt_of_ne hx)

/-- After four `sb` to the bytes of a word, `lw` reads their values (R42). -/
theorem lw_after_four_sb {s s₁ s₂ s₃ s₄ : State} {r₀ r₁ r₂ r₃ q₀ q₁ q₂ q₃ rd q : Reg} {j₀ j₁ j₂ j₃ j : BitVec 12}
    {A : Word} (hA : A.toNat % 4 = 0) (hr : PlainReadable s A 4)
    (ha₀ : effectiveAddress s q₀ j₀ = A) (ha₁ : effectiveAddress s q₁ j₁ = A + 1#32)
    (ha₂ : effectiveAddress s q₂ j₂ = A + 2#32) (ha₃ : effectiveAddress s q₃ j₃ = A + 3#32)
    (h₀ : exec (.sb r₀ q₀ j₀) s = .next s₁) (h₁ : exec (.sb r₁ q₁ j₁) s₁ = .next s₂)
    (h₂ : exec (.sb r₂ q₂ j₂) s₂ = .next s₃) (h₃ : exec (.sb r₃ q₃ j₃) s₃ = .next s₄)
    (hea : effectiveAddress s q j = A) :
    Yields (.lw rd q j) s₄ rd fun x =>
      x.toNat = (s.readReg r₀).toNat % 256 + 256 * ((s.readReg r₁).toNat % 256) +
        65536 * ((s.readReg r₂).toNat % 256) + 16777216 * ((s.readReg r₃).toNat % 256) := by
  have ha₀' : effectiveAddress s q₀ j₀ = A + 0#32 := by rw [ha₀, BitVec.add_zero]
  obtain ⟨hregs₁, hr₁, hbyte₀, -⟩ := sb_to_byte_of_word hA (by decide) rfl hr ha₀' h₀
  obtain ⟨hregs₂, hr₂, hbyte₁, hkeep₁⟩ := sb_to_byte_of_word hA (by decide) hregs₁ hr₁ ha₁ h₁
  obtain ⟨hregs₃, hr₃, hbyte₂, hkeep₂⟩ := sb_to_byte_of_word hA (by decide) hregs₂ hr₂ ha₂ h₂
  obtain ⟨hregs₄, hr₄, hbyte₃, hkeep₃⟩ := sb_to_byte_of_word hA (by decide) hregs₃ hr₃ ha₃ h₃
  refine yields_lw_of_bytes ((effectiveAddress_congr hregs₄ q j).trans hea) hA hr₄ ?_ ?_ ?_ hbyte₃
  · rw [hkeep₃ _ (by omega), hkeep₂ _ (by omega), hkeep₁ _ (by omega)]
    exact hbyte₀
  · rw [hkeep₃ _ (by omega), hkeep₂ _ (by omega)]
    exact hbyte₁
  · rw [hkeep₃ _ (by omega)]
    exact hbyte₂

/-- After two `sh` to the halves of a word, `lw` reads their values (R42). -/
theorem lw_after_two_sh {s s₁ s₂ : State} {r₀ r₁ q₀ q₁ rd q : Reg} {j₀ j₁ j : BitVec 12} {A : Word}
    (hA : A.toNat % 4 = 0) (hr : PlainReadable s A 4)
    (ha₀ : effectiveAddress s q₀ j₀ = A) (ha₁ : effectiveAddress s q₁ j₁ = A + 2#32)
    (h₀ : exec (.sh r₀ q₀ j₀) s = .next s₁) (h₁ : exec (.sh r₁ q₁ j₁) s₁ = .next s₂)
    (hea : effectiveAddress s q j = A) :
    Yields (.lw rd q j) s₂ rd fun x =>
      x.toNat = (s.readReg r₀).toNat % 65536 + 65536 * ((s.readReg r₁).toNat % 65536) := by
  obtain ⟨st₀, hregs₁, hp₁⟩ := storeFrom_eq_next rfl ha₀ h₀
  obtain ⟨st₁, hregs₂, hp₂⟩ := storeFrom_eq_next hregs₁ ha₁ h₁
  have hr₁ : PlainReadable s₁ A 4 := hr.part (k := 0) hp₁ rfl le_rfl
  have hr₂ : PlainReadable s₂ A 4 := hr₁.part (k := 0) hp₂ rfl le_rfl
  have hA₂ : (A + 2#32).toNat = A.toNat + 2 := toNat_add_ofNat hA (k := 2) (by decide)
  have hlow : ∀ k, k < 2 → (s₂.byteAt (A.toNat + k)).toNat = (s.readReg r₀).toNat / 256 ^ k % 256 := fun k hk => by
    rw [st₁.byteAt_other (by omega), st₀.byteAt_own hk (hr k (by omega)).2, leByte_toNat]
  have hhigh : ∀ k, k < 2 → (s₂.byteAt (A.toNat + 2 + k)).toNat = (s.readReg r₁).toNat / 256 ^ k % 256 :=
    fun k hk => by
      have hplain := (hr₁ (2 + k) (by omega)).2
      rw [← hA₂, st₁.byteAt_own hk (by rwa [hA₂, Nat.add_assoc]), leByte_toNat]
  have hyields := yields_lw_of_bytes (rd := rd) ((effectiveAddress_congr hregs₂ q j).trans hea) hA hr₂
    (hlow 0 (by decide)) (hlow 1 (by decide)) (hhigh 0 (by decide)) (hhigh 1 (by decide))
  exact hyields.imp fun x hx => by omega

/-- Settles O21: one lemma per clause; the last is the frame of a store. -/
theorem mixedWidthAccess : Obligations.MixedWidthAccess := by
  refine ⟨?_, ?_, ?_, ?_⟩
  · intro s t rs2 rs1 imm A v hA hv hr h
    obtain ⟨hstored, -, hparams⟩ := storeFrom_eq_next rfl hA.symm h
    exact narrow_loads_after_sw hr (hv ▸ hstored) hparams
  · intro s s₁ s₂ s₃ s₄ r₀ r₁ r₂ r₃ q₀ q₁ q₂ q₃ rd q j₀ j₁ j₂ j₃ j A hA hr ha₀ ha₁ ha₂ ha₃ h₀ h₁ h₂ h₃ hea
    exact lw_after_four_sb hA hr ha₀ ha₁ ha₂ ha₃ h₀ h₁ h₂ h₃ hea
  · intro s s₁ s₂ r₀ r₁ q₀ q₁ rd q j₀ j₁ j A hA hr ha₀ ha₁ h₀ h₁ hea
    exact lw_after_two_sh hA hr ha₀ ha₁ h₀ h₁ hea
  · intro s t i rs2 rs1 imm n hi h x hx
    simp only [List.mem_cons, Prod.mk.injEq, List.not_mem_nil, or_false] at hi
    rcases hi with ⟨rfl, rfl⟩ | ⟨rfl, rfl⟩
    · obtain ⟨hstored, -, -⟩ := storeFrom_eq_next (w := .byte) rfl rfl h
      exact hstored.byteAt_other hx
    · obtain ⟨hstored, -, -⟩ := storeFrom_eq_next (w := .half) rfl rfl h
      exact hstored.byteAt_other hx

end Sys2Proof.Machine

/-! ### The fetch: its fault, and the two settings in which it sees no store -/

namespace Sys2Proof.Machine

open Sys2Proof.Config

/-- A word of plain executable code, byte by byte (R46). -/
theorem PlainExecutable.bytes {s : State} {a : Word} (h : PlainExecutable s a 4) (ha : a.toNat % 4 = 0) :
    ∀ x ∈ accessBytes a .word, s.executable x = true ∧ s.isDevice x = false :=
  (forall_mem_accessBytes (aligned_iff.mpr ha)).mpr h

/-- A fetch with a byte that is not executable faults (R46). -/
theorem fetch_of_unexecutable {s : State} (hpc : s.pc.toNat % 4 = 0)
    (hx : ∃ k, k < 4 ∧ s.executable (s.pc.toNat + k) = false) :
    fetch s = .fault (.instructionAccessFault s.pc s.pc) := by
  simp [fetch, raise, all_accessBytes_eq_false (w := .word) hpc hx]

/-- Settles O7: the fault ends the step; plain code is read by `fetch_of_sees`. -/
theorem fetchReadsLittleEndianWord : Obligations.FetchReadsLittleEndianWord := by
  intro s hpc
  refine ⟨fun hx => ?_, fun hx hsees => ?_⟩
  · have hfetch := fetch_of_unexecutable hpc hx
    exact ⟨hfetch, by rw [step, hfetch, andThen_fault]⟩
  · rw [fetch_of_sees hpc hx hsees, leWord_four]

/-- A fetch that does not see stores refuses no byte (R55). -/
theorem State.refusedCode_of_ignores {s : State} (h : s.params.fetchSeesStores = .ignores) :
    s.refusedCode = none := by
  unfold State.refusedCode
  rw [h]

/-- A fetch that does not see stores reads `INIT_MEM`, so the parameters alone decide its bytes (R55). -/
theorem State.codeByteAt_of_ignores {s t : State} (h : s.params.fetchSeesStores = .ignores)
    (hparams : t.params = s.params) (x : Nat) : t.codeByteAt x = s.codeByteAt x := by
  simp [State.codeByteAt, State.codeMemory, hparams, h]

/-- Settles O11: both fetches read `INIT_MEM`. -/
theorem fetchIgnoringStoresKeepsWord : Obligations.FetchIgnoringStoresKeepsWord := by
  intro s t i w p word hignores _ hexec hp hx hbefore
  have hkept := exec_keeps_params hexec
  have hparams : (t.setPc p).params = (s.setPc p).params := hkept
  have hcode := hx.bytes hp
  have hs := fetch_plain (s := s.setPc p) (fun x hx' => (hcode x hx').1) (fun x hx' => (hcode x hx').2)
    (State.refusedCode_of_ignores hignores)
  have ht := fetch_plain (s := t.setPc p)
    (fun x hx' => (State.executable_congr hparams x).trans (hcode x hx').1)
    (fun x hx' => (State.isDevice_congr hparams x).trans (hcode x hx').2)
    (State.refusedCode_of_ignores (hparams ▸ hignores))
  have hword : word = leWord ((accessBytes p .word).map (s.setPc p).codeByteAt) := by
    rw [hs] at hbefore
    cases hbefore
    rfl
  have hsame : (t.setPc p).codeByteAt = (s.setPc p).codeByteAt := funext (State.codeByteAt_of_ignores hignores hparams)
  rw [ht, hsame, hword]
  rfl

/-- An instruction of a store's kind that completes stores with that width. -/
theorem storedIn_of_store {i : Instr} {s t : State} {w : Width} (hkind : kindOf i = .store w)
    (h : exec i s = .next t) : ∃ a v, StoredIn s t a w v := by
  rcases exec_eq_next h with ⟨w', rd, v, n, hk, -, -⟩ | ⟨w', a, v, hk, -, ha, hw, rfl⟩ | ⟨rd, v, hk, -, -⟩ |
    ⟨hk, -, -⟩ | ⟨rd, hk, -, -⟩ <;> rw [hkind] at hk <;> cases hk
  exact ⟨a, v, storedIn_of_checked v ha hw⟩

/-- At `refuse`, a fetch of a word with a stored byte names one of its stored bytes (R55). -/
theorem State.refusedCode_of_refuse {s : State} (h : s.params.fetchSeesStores = .refuse)
    (hstored : ∃ x ∈ accessBytes s.pc .word, s.storedTo x = true) :
    ∃ x ∈ accessBytes s.pc .word, s.refusedCode = some x := by
  obtain ⟨x, hx⟩ := Option.isSome_iff_exists.mp (List.find?_isSome.mpr hstored)
  exact ⟨x, List.mem_of_find?_eq_some hx, by simpa [State.refusedCode, h] using hx⟩

/-- What the fetch refuses, when it refuses (R55, R183). -/
theorem fetch_of_refusedCode {s : State} {a : Nat} (hx : ∀ x ∈ accessBytes s.pc .word, s.executable x = true)
    (h : s.refusedCode = some a) : fetch s = .refused (.storeToCode (BitVec.ofNat 32 a)) := by
  have hall : (accessBytes s.pc .word).all s.executable = true := List.all_eq_true.mpr hx
  simp [fetch, hall, h]

/-- A byte of an access is a 32-bit address. -/
theorem lt_of_mem_accessBytes {a : Word} {w : Width} {x : Nat} (h : x ∈ accessBytes a w) : x < 4294967296 := by
  obtain ⟨k, -, rfl⟩ := List.mem_map.mp h
  exact byteAddr_lt a k

/-- Settles O12: the store's record covers a byte of the word, so the fetch at it refuses. -/
theorem fetchOfStoredCodeRefused : Obligations.FetchOfStoredCodeRefused := by
  intro s t i w e p k hrefuse hkind hexec hrecord hp hx hk hlow hhigh
  obtain ⟨a, v, hst⟩ := storedIn_of_store hkind hexec
  obtain rfl : e = ⟨a, w, widthValue w v⟩ := by simpa [hst.stores] using hrecord.symm
  have hkept := exec_keeps_params hexec
  have hparams : (t.setPc p).params = s.params := hkept
  have hword {x : Nat} := mem_accessBytes (a := p) (w := .word) (aligned_iff.mpr hp) (x := x)
  have hstored : (t.setPc p).storedTo (p.toNat + k) = true := by
    have hcovers := (storeCovers_iff (e := ⟨a, w, widthValue w v⟩) hst.aligned (p.toNat + k)).mpr ⟨hlow, hhigh⟩
    simp [State.storedTo, hrecord, hcovers]
  obtain ⟨b, hb, hcode⟩ := State.refusedCode_of_refuse (s := t.setPc p) (hparams ▸ hrefuse)
    ⟨_, hword.mpr ⟨Nat.le_add_right _ k, Nat.add_lt_add_left hk _⟩, hstored⟩
  have hfetch := fetch_of_refusedCode
    (fun x hx' => (State.executable_congr hparams x).trans (hx.bytes hp x hx').1) hcode
  have hlt := Nat.mod_eq_of_lt (lt_of_mem_accessBytes hb)
  refine ⟨BitVec.ofNat 32 b, by rw [step, hfetch, andThen_refused], ?_⟩
  rw [BitVec.toNat_ofNat, show 2 ^ 32 = 4294967296 from rfl, hlt]
  exact hword.mp hb

/-! ### What is refused -/

/-- No shared operation of the instructions refuses (R183). -/
theorem memRead_ne_refused (s : State) (a : Word) (w : Width) (q : Refusal) : memRead s a w ≠ .refused q := by
  unfold memRead raise
  split
  · simp
  · split <;> simp

theorem memWrite_ne_refused (s : State) (a v : Word) (w : Width) (q : Refusal) : memWrite s a w v ≠ .refused q := by
  unfold memWrite raise
  split
  · simp
  · split <;> simp

theorem transferTo_ne_refused (s onward : State) (target : Word) (q : Refusal) :
    transferTo s target onward ≠ .refused q := by
  unfold transferTo raise
  split <;> simp

/-- No instruction refuses (R183). -/
theorem exec_ne_refused (i : Instr) (s : State) (q : Refusal) : exec i s ≠ .refused q := by
  intro h
  rcases exec_shape i s with ⟨w, widen, rd, rs1, imm, -, -, hexec, -⟩ | ⟨w, rs2, rs1, imm, -, -, hexec⟩ |
    ⟨rd, v, -, -, hexec, -⟩ | ⟨cond, off, -, -, hexec⟩ | ⟨rd, target, -, -, hexec, -⟩ <;> rw [hexec] at h
  · rcases andThen_eq_refused h with hread | ⟨p, -, hwrite⟩
    · exact memRead_ne_refused _ _ _ _ hread
    · cases hwrite
  · rcases andThen_eq_refused h with hwrite | ⟨s', -, hadvance⟩
    · exact memWrite_ne_refused _ _ _ _ _ hwrite
    · cases hadvance
  · cases h
  · cases cond with
    | true => exact transferTo_ne_refused _ _ _ _ h
    | false => cases h
  · exact transferTo_ne_refused _ _ _ _ h

/-- A fetch refuses at `refuse` alone, and then a byte of the word that the program stored to (R55, R183). -/
theorem fetch_eq_refused {s : State} {q : Refusal} (h : fetch s = .refused q) :
    s.params.fetchSeesStores = .refuse ∧ ∃ x ∈ accessBytes s.pc .word, s.storedTo x = true ∧
      q = .storeToCode (BitVec.ofNat 32 x) := by
  unfold fetch raise at h
  split at h
  · cases h
  · split at h
    · next x hcode =>
      cases h
      unfold State.refusedCode at hcode
      split at hcode
      · next hrefuse =>
        exact ⟨hrefuse, x, List.mem_of_find?_eq_some hcode, List.find?_some hcode, rfl⟩
      · cases hcode
      · cases hcode
    · cases h

/-- Settles O36: neither the decoder nor an instruction refuses, so a refused step is a refused fetch. -/
theorem onlyStoredCodeRefused : Obligations.OnlyStoredCodeRefused := by
  refine ⟨fun s i q => exec_ne_refused i s q, fun s q h => ?_⟩
  rcases andThen_eq_refused h with hfetch | ⟨⟨w, s'⟩, -, hrest⟩
  · obtain ⟨hrefuse, x, hx, hstored, rfl⟩ := fetch_eq_refused hfetch
    refine ⟨hrefuse, _, rfl, ?_⟩
    rwa [BitVec.toNat_ofNat, Nat.mod_eq_of_lt (lt_of_mem_accessBytes hx)]
  · rcases andThen_eq_refused hrest with hdecode | ⟨i, -, hexec⟩
    · unfold decodeOrRaise raise at hdecode
      split at hdecode <;> cases hdecode
    · exact absurd hexec (exec_ne_refused i s' q)

end Sys2Proof.Machine

/-! ### The decoder reads back what the encoder wrote -/

namespace Sys2Proof

/-- A register field that holds a register's five bits names it (R20, R87). -/
theorem regOfBits_eq {b : BitVec 5} {r : Reg} (h : b = regBits r) : regOfBits b = r := by
  rw [h]
  rfl

/-! The fields of each format (R71 to R76) and its immediate (R78 to R83), read from the word they were written in. -/

theorem fields_encodeR (g : BitVec 7) (rs2 rs1 : Reg) (f : BitVec 3) (rd : Reg) (op : BitVec 7) :
    opField (encodeR g rs2 rs1 f rd op) = op ∧ funct3Field (encodeR g rs2 rs1 f rd op) = f ∧
    funct7Field (encodeR g rs2 rs1 f rd op) = g ∧ rdField (encodeR g rs2 rs1 f rd op) = rd ∧
    rs1Field (encodeR g rs2 rs1 f rd op) = rs1 ∧ rs2Field (encodeR g rs2 rs1 f rd op) = rs2 := by
  simp only [encodeR, opField, funct3Field, funct7Field]
  refine ⟨?_, ?_, ?_, regOfBits_eq ?_, regOfBits_eq ?_, regOfBits_eq ?_⟩ <;> grind

theorem fields_encodeI (imm : BitVec 12) (rs1 : Reg) (f : BitVec 3) (rd : Reg) (op : BitVec 7) :
    opField (encodeI imm rs1 f rd op) = op ∧ funct3Field (encodeI imm rs1 f rd op) = f ∧
    rdField (encodeI imm rs1 f rd op) = rd ∧ rs1Field (encodeI imm rs1 f rd op) = rs1 ∧
    immIField (encodeI imm rs1 f rd op) = imm := by
  simp only [encodeI, opField, funct3Field, immIField]
  refine ⟨?_, ?_, regOfBits_eq ?_, regOfBits_eq ?_, ?_⟩ <;> grind

theorem fields_encodeShift (g : BitVec 7) (u : BitVec 5) (rs1 : Reg) (f : BitVec 3) (rd : Reg) (op : BitVec 7) :
    opField (encodeShift g u rs1 f rd op) = op ∧ funct3Field (encodeShift g u rs1 f rd op) = f ∧
    funct7Field (encodeShift g u rs1 f rd op) = g ∧ rdField (encodeShift g u rs1 f rd op) = rd ∧
    rs1Field (encodeShift g u rs1 f rd op) = rs1 ∧ uimmField (encodeShift g u rs1 f rd op) = u := by
  simp only [encodeShift, opField, funct3Field, funct7Field, uimmField]
  refine ⟨?_, ?_, ?_, regOfBits_eq ?_, regOfBits_eq ?_, ?_⟩ <;> grind

theorem fields_encodeS (imm : BitVec 12) (rs2 rs1 : Reg) (f : BitVec 3) (op : BitVec 7) :
    opField (encodeS imm rs2 rs1 f op) = op ∧ funct3Field (encodeS imm rs2 rs1 f op) = f ∧
    rs1Field (encodeS imm rs2 rs1 f op) = rs1 ∧ rs2Field (encodeS imm rs2 rs1 f op) = rs2 := by
  simp only [encodeS, opField, funct3Field]
  refine ⟨?_, ?_, regOfBits_eq ?_, regOfBits_eq ?_⟩ <;> grind

theorem fields_encodeB (off : BitVec 13) (rs2 rs1 : Reg) (f : BitVec 3) (op : BitVec 7) :
    opField (encodeB off rs2 rs1 f op) = op ∧ funct3Field (encodeB off rs2 rs1 f op) = f ∧
    rs1Field (encodeB off rs2 rs1 f op) = rs1 ∧ rs2Field (encodeB off rs2 rs1 f op) = rs2 := by
  simp only [encodeB, opField, funct3Field]
  refine ⟨?_, ?_, regOfBits_eq ?_, regOfBits_eq ?_⟩ <;> grind

theorem fields_encodeU (upimm : BitVec 20) (rd : Reg) (op : BitVec 7) :
    opField (encodeU upimm rd op) = op ∧ rdField (encodeU upimm rd op) = rd ∧
    immUField (encodeU upimm rd op) = upimm := by
  simp only [encodeU, opField, immUField]
  refine ⟨?_, regOfBits_eq ?_, ?_⟩ <;> grind

theorem fields_encodeJ (off : BitVec 21) (rd : Reg) (op : BitVec 7) :
    opField (encodeJ off rd op) = op ∧ rdField (encodeJ off rd op) = rd := by
  simp only [encodeJ, opField]
  refine ⟨?_, regOfBits_eq ?_⟩ <;> grind

/-- A store's immediate is put together again (R73, R79). -/
theorem immSField_encodeS (imm : BitVec 12) (rs2 rs1 : Reg) (f : BitVec 3) (op : BitVec 7) :
    immSField (encodeS imm rs2 rs1 f op) = imm := by
  apply BitVec.eq_of_getLsbD_eq
  intro k hk
  interval_cases k <;>
    simp only [encodeS, immSField, BitVec.getLsbD_extractLsb', BitVec.getLsbD_append] <;> simp

/-- A branch offset is put together again; its bit 0 is not stored and must be 0 (R74, R80). -/
theorem immBField_encodeB {off : BitVec 13} (h : branchOffsetWf off = true) (rs2 rs1 : Reg) (f : BitVec 3)
    (op : BitVec 7) : immBField (encodeB off rs2 rs1 f op) = off := by
  have hbit0 : off[0] = false := by simpa [branchOffsetWf] using h
  apply BitVec.eq_of_getLsbD_eq
  intro k hk
  interval_cases k <;>
    simp only [encodeB, immBField, BitVec.getLsbD_extractLsb', BitVec.getLsbD_append] <;> simp [hbit0]

/-- So is the offset of `jal` (R76, R82). -/
theorem immJField_encodeJ {off : BitVec 21} (h : jumpOffsetWf off = true) (rd : Reg) (op : BitVec 7) :
    immJField (encodeJ off rd op) = off := by
  have hbit0 : off[0] = false := by simpa [jumpOffsetWf] using h
  apply BitVec.eq_of_getLsbD_eq
  intro k hk
  interval_cases k <;>
    simp only [encodeJ, immJField, BitVec.getLsbD_extractLsb', BitVec.getLsbD_append] <;> simp [hbit0]

/-- The word of a well-formed instruction decodes to it (R71 to R76, R84). -/
theorem decode_encode {i : Instr} (h : i.wf = true) : decode (encode i) = .ok i := by
  cases i with
  | lb | lh | lw | lbu | lhu => simp [encode, decode, decodeLoad, fields_encodeI]
  | addi | slti | sltiu | xori | ori | andi => simp [encode, decode, decodeAluImm, fields_encodeI]
  | slli | srli | srai => simp [encode, decode, decodeAluImm, fields_encodeShift]
  | sb | sh | sw => simp [encode, decode, decodeStore, fields_encodeS, immSField_encodeS]
  | add | sub | sll | slt | sltu | xor | srl | sra | or | and =>
    simp [encode, decode, decodeAluReg, fields_encodeR]
  | auipc | lui => simp [encode, decode, fields_encodeU]
  | beq | bne | blt | bge | bltu | bgeu =>
    simp [encode, decode, decodeBranch, fields_encodeB, immBField_encodeB h]
  | jalr => simp [encode, decode, decodeJalr, fields_encodeI]
  | jal => simp [encode, decode, fields_encodeJ, immJField_encodeJ h]

end Sys2Proof

/-! ### Placing an instruction for the next fetch -/

namespace Sys2Proof.Machine

open Sys2Proof.Config

@[simp] theorem State.withCodeAtPc_regs (s : State) : s.withCodeAtPc.regs = s.regs := by
  unfold State.withCodeAtPc; split <;> rfl
@[simp] theorem State.withCodeAtPc_pc (s : State) : s.withCodeAtPc.pc = s.pc := by
  unfold State.withCodeAtPc; split <;> rfl
@[simp] theorem State.withCodeAtPc_draws (s : State) : s.withCodeAtPc.draws = s.draws := by
  unfold State.withCodeAtPc; split <;> rfl

@[simp] theorem State.placeWord_regs (s : State) (w : Word) : (s.placeWord w).regs = s.regs := by
  unfold State.placeWord; split <;> rfl
@[simp] theorem State.placeWord_pc (s : State) (w : Word) : (s.placeWord w).pc = s.pc := by
  unfold State.placeWord; split <;> rfl
@[simp] theorem State.placeWord_draws (s : State) (w : Word) : (s.placeWord w).draws = s.draws := by
  unfold State.placeWord; split <;> rfl
@[simp] theorem State.placeWord_memMap (s : State) (w : Word) :
    (s.placeWord w).params.memMap = s.params.memMap := by
  unfold State.placeWord; split <;> rfl

/-- The first region that holds the address decides it (R50, log entry 19). -/
theorem regionAt_cons (r : Region) (map : List Region) (a : Nat) :
    regionAt (r :: map) a = if r.base ≤ a ∧ a < r.base + r.size then some r else regionAt map a := by
  unfold regionAt
  by_cases hin : r.base ≤ a ∧ a < r.base + r.size
  · rw [if_pos hin, List.find?_cons_of_pos (by simpa using hin)]
  · rw [if_neg hin, List.find?_cons_of_neg (by simpa using hin)]

/-- One-byte regions in front of a map decide the addresses they stand for. -/
theorem regionAt_codeRegions (s : State) (map : List Region) {l : List Nat} {a : Nat} (h : a ∈ l) :
    regionAt (l.map (codeRegion s) ++ map) a = some (codeRegion s a) := by
  induction l with
  | nil => cases h
  | cons x rest ih =>
    rw [List.map_cons, List.cons_append, regionAt_cons]
    by_cases hx : a = x
    · subst hx
      exact if_pos ⟨le_rfl, Nat.lt_succ_self a⟩
    · have hout : ¬(x ≤ a ∧ a < x + 1) := by omega
      exact (if_neg hout).trans (ih ((List.mem_cons.mp h).resolve_left hx))

/-- The bytes at `pc` are made plain executable ones (R46). -/
theorem State.withCodeAtPc_code (s : State) {x : Nat} (hx : x ∈ accessBytes s.pc .word) :
    s.withCodeAtPc.executable x = true ∧ s.withCodeAtPc.isDevice x = false := by
  unfold State.withCodeAtPc
  split
  · next hall => simpa using List.all_eq_true.mp hall x hx
  · simp [State.executable, State.isDevice, regionAt_codeRegions s _ hx, codeRegion]

/-- The four bytes of a word have four addresses, with the wrap too (R51). -/
theorem byteAddr_inj {a : Word} {i j : Nat} (hi : i < 4) (hj : j < 4) (h : byteAddr a i = byteAddr a j) : i = j := by
  simp only [byteAddr, BitVec.toNat_add, BitVec.toNat_ofNat] at h
  omega

/-- The placed bytes read back (R41). -/
theorem get?_placeBytes (m : Memory) (a w : Word) {n k : Nat} (hn : n ≤ 4) (hk : k < n) :
    (placeBytes m a w n).get? (byteAddr a k) = some (leByte w k) := by
  induction n with
  | zero => cases hk
  | succ n ih =>
    by_cases hkn : k = n
    · subst hkn
      exact Memory.get?_set_self _ _ _
    · have hne : byteAddr a k ≠ byteAddr a n := fun he => hkn (byteAddr_inj (by omega) (by omega) he)
      rw [placeBytes, Memory.get?_set_ne _ _ hne]
      exact ih (by omega) (by omega)

/-- A word is placed in the memory the fetch reads, whatever `FETCH_SEES_STORES` says (R55). -/
theorem State.codeMemory_placeWord (s : State) (w : Word) :
    (s.placeWord w).codeMemory = placeBytes s.codeMemory s.pc w 4 := by
  cases h : s.params.fetchSeesStores <;> simp [State.placeWord, State.codeMemory, h]

/-- So the fetch reads its bytes. -/
theorem State.codeByteAt_placeWord (s : State) (w : Word) {k : Nat} (hk : k < 4) :
    (s.placeWord w).codeByteAt (byteAddr s.pc k) = leByte w k := by
  simp [State.codeByteAt, State.codeMemory_placeWord, get?_placeBytes _ _ _ le_rfl hk]

/-- At `refuse` the stores to the placed bytes are forgotten, so the fetch refuses none of them (R55). -/
theorem State.refusedCode_placeWord (s : State) (w : Word) : (s.placeWord w).refusedCode = none := by
  cases h : s.params.fetchSeesStores with
  | sees => simp [State.placeWord, State.refusedCode, h]
  | ignores => simp [State.placeWord, State.refusedCode, h]
  | refuse =>
    simp only [State.placeWord, State.refusedCode, h, List.find?_eq_none, State.storedTo, List.any_eq_true,
      List.mem_filter, Bool.not_eq_true', List.any_eq_false]
    rintro x hx ⟨e, ⟨-, hforgotten⟩, hcovers⟩
    exact hforgotten x hx hcovers

/-- The fetch answers the placed word, and draws nothing (R46). -/
theorem fetch_placeWord_withCodeAtPc (s : State) (w : Word) :
    fetch (s.withCodeAtPc.placeWord w) = .next (w, s.withCodeAtPc.placeWord w) := by
  have hpc : (s.withCodeAtPc.placeWord w).pc = s.pc := by simp
  have hcode : ∀ x ∈ accessBytes (s.withCodeAtPc.placeWord w).pc .word,
      (s.withCodeAtPc.placeWord w).executable x = true ∧ (s.withCodeAtPc.placeWord w).isDevice x = false := by
    intro x hx
    rw [hpc] at hx
    simpa [State.executable, State.isDevice] using s.withCodeAtPc_code hx
  have hbyte : ∀ k, k < 4 → (s.withCodeAtPc.placeWord w).codeByteAt (byteAddr s.pc k) = leByte w k := fun k hk => by
    rw [← s.withCodeAtPc_pc, State.codeByteAt_placeWord _ w hk]
  have hword : leWord ((accessBytes s.pc .word).map (s.withCodeAtPc.placeWord w).codeByteAt) = w := by
    simp [accessBytes, widthBytes, List.range, List.range.loop, hbyte, leWord_leByte]
  rw [fetch_plain (fun x hx => (hcode x hx).1) (fun x hx => (hcode x hx).2) (State.refusedCode_placeWord _ w), hpc,
    hword]

/-- Settles O9: the fetch answers the placed word, which decodes to the instruction. -/
theorem placedInstructionRunsNext : Obligations.PlacedInstructionRunsNext := by
  intro s i hwf
  have hword : BitVec.ofNat 32 ((encode i).toNat % 2 ^ 32) = encode i := by
    rw [Nat.mod_eq_of_lt (encode i).isLt, BitVec.ofNat_toNat, BitVec.setWidth_eq]
  unfold State.withFetchWord
  rw [hword]
  exact ⟨step_of_fetch (fetch_placeWord_withCodeAtPc s _) (decode_encode hwf), by simp, by simp, by simp⟩

end Sys2Proof.Machine

/-! ### The encoder writes back what the decoder read -/

namespace Sys2Proof

/-- A register's bits are those of the field that named it (R20, R87). -/
theorem regBits_regOfBits (b : BitVec 5) : regBits (regOfBits b) = b := rfl

/-! Each format (R71 to R76) puts the fields of a word, its immediate among them (R78 to R83), back in their places. -/

theorem encodeR_of_fields {w : Word} {op : BitVec 7} {f : BitVec 3} {g : BitVec 7} (hop : opField w = op)
    (hf : funct3Field w = f) (hg : funct7Field w = g) :
    encodeR g (rs2Field w) (rs1Field w) f (rdField w) op = w := by
  subst hop hf hg
  simp only [encodeR, funct7Field, rs2Field, rs1Field, funct3Field, rdField, opField, regBits_regOfBits]
  grind

theorem encodeI_of_fields {w : Word} {op : BitVec 7} {f : BitVec 3} (hop : opField w = op)
    (hf : funct3Field w = f) : encodeI (immIField w) (rs1Field w) f (rdField w) op = w := by
  subst hop hf
  simp only [encodeI, immIField, rs1Field, funct3Field, rdField, opField, regBits_regOfBits]
  grind

theorem encodeShift_of_fields {w : Word} {op : BitVec 7} {f : BitVec 3} {g : BitVec 7} (hop : opField w = op)
    (hf : funct3Field w = f) (hg : funct7Field w = g) :
    encodeShift g (uimmField w) (rs1Field w) f (rdField w) op = w := by
  subst hop hf hg
  simp only [encodeShift, funct7Field, uimmField, rs1Field, funct3Field, rdField, opField, regBits_regOfBits]
  grind

theorem encodeU_of_fields {w : Word} {op : BitVec 7} (hop : opField w = op) :
    encodeU (immUField w) (rdField w) op = w := by
  subst hop
  simp only [encodeU, immUField, rdField, opField, regBits_regOfBits]
  grind

/-- The two parts of a store's immediate go back to their places (R73, R79). -/
theorem encodeS_of_fields {w : Word} {op : BitVec 7} {f : BitVec 3} (hop : opField w = op)
    (hf : funct3Field w = f) : encodeS (immSField w) (rs2Field w) (rs1Field w) f op = w := by
  subst hop hf
  apply BitVec.eq_of_getLsbD_eq
  intro k hk
  interval_cases k <;>
    simp only [encodeS, immSField, rs2Field, rs1Field, funct3Field, opField, regBits_regOfBits,
      BitVec.getLsbD_extractLsb', BitVec.getLsbD_append] <;> simp

/-- So do the four parts of a branch offset (R74, R80). -/
theorem encodeB_of_fields {w : Word} {op : BitVec 7} {f : BitVec 3} (hop : opField w = op)
    (hf : funct3Field w = f) : encodeB (immBField w) (rs2Field w) (rs1Field w) f op = w := by
  subst hop hf
  apply BitVec.eq_of_getLsbD_eq
  intro k hk
  interval_cases k <;>
    simp only [encodeB, immBField, rs2Field, rs1Field, funct3Field, opField, regBits_regOfBits,
      BitVec.getLsbD_extractLsb', BitVec.getLsbD_append] <;> simp

/-- And those of the offset of `jal` (R76, R82). -/
theorem encodeJ_of_fields {w : Word} {op : BitVec 7} (hop : opField w = op) :
    encodeJ (immJField w) (rdField w) op = w := by
  subst hop
  apply BitVec.eq_of_getLsbD_eq
  intro k hk
  interval_cases k <;>
    simp only [encodeJ, immJField, rdField, opField, regBits_regOfBits,
      BitVec.getLsbD_extractLsb', BitVec.getLsbD_append] <;> simp

/-- The offset a decoder reads is even: its bit 0 is no bit of the word (R80, R82). -/
theorem branchOffsetWf_immBField (w : Word) : branchOffsetWf (immBField w) = true := by
  simp only [branchOffsetWf, immBField, BitVec.getLsbD_append]
  rfl

theorem jumpOffsetWf_immJField (w : Word) : jumpOffsetWf (immJField w) = true := by
  simp only [jumpOffsetWf, immJField, BitVec.getLsbD_append]
  rfl

/-- The eight values of `funct3`. -/
theorem funct3_cases (f : BitVec 3) : f = 0b000#3 ∨ f = 0b001#3 ∨ f = 0b010#3 ∨ f = 0b011#3 ∨ f = 0b100#3 ∨
    f = 0b101#3 ∨ f = 0b110#3 ∨ f = 0b111#3 := by
  revert f
  decide

/-- A `funct3` that is none of the first seven is the last, which the decoder does not test for (R84). -/
theorem funct3_eq_seven {f : BitVec 3} (h0 : f ≠ 0b000#3) (h1 : f ≠ 0b001#3) (h2 : f ≠ 0b010#3) (h3 : f ≠ 0b011#3)
    (h4 : f ≠ 0b100#3) (h5 : f ≠ 0b101#3) (h6 : f ≠ 0b110#3) : f = 0b111#3 := by
  simpa [h0, h1, h2, h3, h4, h5, h6] using funct3_cases f

/-! What each opcode's decoder answers is well-formed, and its word is the one decoded (R84). -/

theorem encode_of_decodeLoad {w : Word} {i : Instr} (hop : opField w = 0b0000011#7) (h : decodeLoad w = .ok i) :
    i.wf = true ∧ encode i = w := by
  unfold decodeLoad at h
  split_ifs at h <;> cases h <;> exact ⟨rfl, encodeI_of_fields hop ‹_›⟩

theorem encode_of_decodeAluImm {w : Word} {i : Instr} (hop : opField w = 0b0010011#7) (h : decodeAluImm w = .ok i) :
    i.wf = true ∧ encode i = w := by
  unfold decodeAluImm at h
  split_ifs at h with h0 h1 hslli h2 h3 h4 h5 hsrli hsrai h6 <;> cases h
  · exact ⟨rfl, encodeI_of_fields hop h0⟩
  · exact ⟨rfl, encodeShift_of_fields hop h1 hslli⟩
  · exact ⟨rfl, encodeI_of_fields hop h2⟩
  · exact ⟨rfl, encodeI_of_fields hop h3⟩
  · exact ⟨rfl, encodeI_of_fields hop h4⟩
  · exact ⟨rfl, encodeShift_of_fields hop h5 hsrli⟩
  · exact ⟨rfl, encodeShift_of_fields hop h5 hsrai⟩
  · exact ⟨rfl, encodeI_of_fields hop h6⟩
  · exact ⟨rfl, encodeI_of_fields hop (funct3_eq_seven h0 h1 h2 h3 h4 h5 h6)⟩

theorem encode_of_decodeStore {w : Word} {i : Instr} (hop : opField w = 0b0100011#7) (h : decodeStore w = .ok i) :
    i.wf = true ∧ encode i = w := by
  unfold decodeStore at h
  split_ifs at h <;> cases h <;> exact ⟨rfl, encodeS_of_fields hop ‹_›⟩

theorem encode_of_decodeAluReg {w : Word} {i : Instr} (hop : opField w = 0b0110011#7) (h : decodeAluReg w = .ok i) :
    i.wf = true ∧ encode i = w := by
  unfold decodeAluReg at h
  split_ifs at h with hzero h0 h1 h2 h3 h4 h5 h6 hone h0 h5 <;> cases h
  · exact ⟨rfl, encodeR_of_fields hop h0 hzero⟩
  · exact ⟨rfl, encodeR_of_fields hop h1 hzero⟩
  · exact ⟨rfl, encodeR_of_fields hop h2 hzero⟩
  · exact ⟨rfl, encodeR_of_fields hop h3 hzero⟩
  · exact ⟨rfl, encodeR_of_fields hop h4 hzero⟩
  · exact ⟨rfl, encodeR_of_fields hop h5 hzero⟩
  · exact ⟨rfl, encodeR_of_fields hop h6 hzero⟩
  · exact ⟨rfl, encodeR_of_fields hop (funct3_eq_seven h0 h1 h2 h3 h4 h5 h6) hzero⟩
  · exact ⟨rfl, encodeR_of_fields hop h0 hone⟩
  · exact ⟨rfl, encodeR_of_fields hop h5 hone⟩

theorem encode_of_decodeBranch {w : Word} {i : Instr} (hop : opField w = 0b1100011#7) (h : decodeBranch w = .ok i) :
    i.wf = true ∧ encode i = w := by
  unfold decodeBranch at h
  split_ifs at h <;> cases h <;> exact ⟨branchOffsetWf_immBField w, encodeB_of_fields hop ‹_›⟩

theorem encode_of_decodeJalr {w : Word} {i : Instr} (hop : opField w = 0b1100111#7) (h : decodeJalr w = .ok i) :
    i.wf = true ∧ encode i = w := by
  unfold decodeJalr at h
  split_ifs at h
  cases h
  exact ⟨rfl, encodeI_of_fields hop ‹_›⟩

/-- A word that decodes is the word of its instruction, which is well-formed (R71 to R76, R84). -/
theorem encode_of_decode {w : Word} {i : Instr} (h : decode w = .ok i) : i.wf = true ∧ encode i = w := by
  unfold decode at h
  split_ifs at h with hload himm hauipc hstore hreg hlui hbranch hjalr hjal
  · exact encode_of_decodeLoad hload h
  · exact encode_of_decodeAluImm himm h
  · cases h; exact ⟨rfl, encodeU_of_fields hauipc⟩
  · exact encode_of_decodeStore hstore h
  · exact encode_of_decodeAluReg hreg h
  · cases h; exact ⟨rfl, encodeU_of_fields hlui⟩
  · exact encode_of_decodeBranch hbranch h
  · exact encode_of_decodeJalr hjalr h
  · cases h; exact ⟨jumpOffsetWf_immJField w, encodeJ_of_fields hjal⟩

/-- Settles O1: the decoder finds in the word the operands the encoder put there. -/
theorem decodeInvertsEncode : Obligations.DecodeInvertsEncode := fun _ => decode_encode

/-- Settles O2: under each opcode and `funct` the fields read are all the bits the format has. -/
theorem encodeInvertsDecode : Obligations.EncodeInvertsDecode := fun _ _ => encode_of_decode

end Sys2Proof

/-! ### The opcode table sorts the words as the decoder does -/

namespace Sys2Proof

/-- Every instruction's word fits a row of its mnemonic (R85): one lemma of `FitsItsRow` each. -/
theorem Laws.FitsItsRow.statement (i : Instr) : Laws.FitsItsRow.Statement i := by
  cases i with
  | lb => exact lb ..
  | lh => exact lh ..
  | lw => exact lw ..
  | lbu => exact lbu ..
  | lhu => exact lhu ..
  | addi => exact addi ..
  | slli => exact slli ..
  | slti => exact slti ..
  | sltiu => exact sltiu ..
  | xori => exact xori ..
  | srli => exact srli ..
  | srai => exact srai ..
  | ori => exact ori ..
  | andi => exact andi ..
  | auipc => exact auipc ..
  | sb => exact sb ..
  | sh => exact sh ..
  | sw => exact sw ..
  | add => exact add ..
  | sub => exact sub ..
  | sll => exact sll ..
  | slt => exact slt ..
  | sltu => exact sltu ..
  | xor => exact xor ..
  | srl => exact srl ..
  | sra => exact sra ..
  | or => exact or ..
  | and => exact and ..
  | lui => exact lui ..
  | beq => exact beq ..
  | bne => exact bne ..
  | blt => exact blt ..
  | bge => exact bge ..
  | bltu => exact bltu ..
  | bgeu => exact bgeu ..
  | jalr => exact jalr ..
  | jal => exact jal ..

/-- The table names each mnemonic once. -/
theorem row_eq_of_mnemonic_eq {r q : OpcodeRow} (hr : r ∈ opcodeTable) (hq : q ∈ opcodeTable)
    (h : r.mnemonic = q.mnemonic) : r = q := by
  have hnodup : (opcodeTable.map OpcodeRow.mnemonic).Nodup := by decide
  exact List.inj_on_of_nodup_map hnodup hr hq h

/-- A field the mask covers is fixed (R85). -/
theorem extract_of_fits {w mask fixed : Word} {a n : Nat} (h : w &&& mask = fixed)
    (hmask : mask.extractLsb' a n = BitVec.allOnes n) : w.extractLsb' a n = fixed.extractLsb' a n := by
  rw [← h, BitVec.extractLsb'_and, hmask, BitVec.and_allOnes]

/-- The mask of each row covers the fields the decoder tests under the row's opcode (R84, R85). -/
theorem opcodeTable_masks : ∀ row ∈ opcodeTable, opField row.mask = BitVec.allOnes 7 ∧
    (opField row.fixed ∉ [0b0010111#7, 0b0110111#7, 0b1101111#7] → funct3Field row.mask = BitVec.allOnes 3) ∧
    (opField row.fixed = 0b0110011#7 ∨ opField row.fixed = 0b0010011#7 ∧ funct3Field row.fixed ∈ [0b001#3, 0b101#3] →
      funct7Field row.mask = BitVec.allOnes 7) := by decide

/-- A row's fixed bits, zeros elsewhere, are themselves a word of its instruction. -/
theorem decode_fixed {row : OpcodeRow} (hrow : row ∈ opcodeTable) :
    ∃ j, decode row.fixed = .ok j ∧ j.mnemonic = row.mnemonic := by
  have hall : ∀ r ∈ opcodeTable, (decode r.fixed).toOption.map Instr.mnemonic = some r.mnemonic := by decide
  have hname := hall row hrow
  cases hdecode : decode row.fixed with
  | ok j => exact ⟨j, rfl, by simpa [hdecode, Except.toOption] using hname⟩
  | error e => simp [hdecode, Except.toOption] at hname

/-- Under `op = 0010011` the shifts alone look at `funct7` (R84, R120). -/
theorem decodeAluImm_mnemonic_congr {v w : Word} {j : Instr} (hv : decodeAluImm v = .ok j)
    (hf : funct3Field w = funct3Field v)
    (hg : funct3Field v ∈ [0b001#3, 0b101#3] → funct7Field w = funct7Field v) :
    ∃ i, decodeAluImm w = .ok i ∧ i.mnemonic = j.mnemonic := by
  unfold decodeAluImm at hv ⊢
  rw [hf]
  by_cases hshift : funct3Field v ∈ [0b001#3, 0b101#3]
  · rw [hg hshift]
    split_ifs at hv ⊢ <;> cases hv <;> exact ⟨_, rfl, rfl⟩
  · obtain ⟨h1, h5⟩ : funct3Field v ≠ 0b001#3 ∧ funct3Field v ≠ 0b101#3 := by simpa using hshift
    simp only [if_neg h1, if_neg h5] at hv ⊢
    split_ifs at hv ⊢ <;> cases hv <;> exact ⟨_, rfl, rfl⟩

/-- Under `op = 0110011` all do (R84, R151). -/
theorem decodeAluReg_mnemonic_congr {v w : Word} {j : Instr} (hv : decodeAluReg v = .ok j)
    (hf : funct3Field w = funct3Field v) (hg : funct7Field w = funct7Field v) :
    ∃ i, decodeAluReg w = .ok i ∧ i.mnemonic = j.mnemonic := by
  unfold decodeAluReg at hv ⊢
  rw [hf, hg]
  split_ifs at hv ⊢ <;> cases hv <;> exact ⟨_, rfl, rfl⟩

/-- The decoder tests no other bits: a word with the same fields has the same mnemonic (R84). -/
theorem decode_mnemonic_congr {v w : Word} {j : Instr} (hv : decode v = .ok j) (hop : opField w = opField v)
    (hf : opField v ∉ [0b0010111#7, 0b0110111#7, 0b1101111#7] → funct3Field w = funct3Field v)
    (hg : opField v = 0b0110011#7 ∨ opField v = 0b0010011#7 ∧ funct3Field v ∈ [0b001#3, 0b101#3] →
      funct7Field w = funct7Field v) : ∃ i, decode w = .ok i ∧ i.mnemonic = j.mnemonic := by
  unfold decode at hv ⊢
  rw [hop]
  split_ifs at hv ⊢ with hload himm hauipc hstore hreg hlui hbranch hjalr hjal
  · unfold decodeLoad at hv ⊢
    rw [hf (by simp [hload])]
    split_ifs at hv ⊢ <;> cases hv <;> exact ⟨_, rfl, rfl⟩
  · exact decodeAluImm_mnemonic_congr hv (hf (by simp [himm])) fun hshift => hg (.inr ⟨himm, hshift⟩)
  · cases hv; exact ⟨_, rfl, rfl⟩
  · unfold decodeStore at hv ⊢
    rw [hf (by simp [hstore])]
    split_ifs at hv ⊢ <;> cases hv <;> exact ⟨_, rfl, rfl⟩
  · exact decodeAluReg_mnemonic_congr hv (hf (by simp [hreg])) (hg (.inl hreg))
  · cases hv; exact ⟨_, rfl, rfl⟩
  · unfold decodeBranch at hv ⊢
    rw [hf (by simp [hbranch])]
    split_ifs at hv ⊢ <;> cases hv <;> exact ⟨_, rfl, rfl⟩
  · unfold decodeJalr at hv ⊢
    rw [hf (by simp [hjalr])]
    split_ifs at hv ⊢
    cases hv
    exact ⟨_, rfl, rfl⟩
  · cases hv; exact ⟨_, rfl, rfl⟩

/-- A word fits a row exactly when it decodes to an instruction of the row's mnemonic (R85). -/
theorem fits_iff_decode (w : Word) {row : OpcodeRow} (hrow : row ∈ opcodeTable) :
    w &&& row.mask = row.fixed ↔ ∃ i, decode w = .ok i ∧ i.mnemonic = row.mnemonic := by
  constructor
  · intro hfits
    obtain ⟨hop, hf, hg⟩ := opcodeTable_masks row hrow
    obtain ⟨j, hj, hname⟩ := decode_fixed hrow
    rw [← hname]
    exact decode_mnemonic_congr hj (extract_of_fits hfits hop) (fun h => extract_of_fits hfits (hf h))
      fun h => extract_of_fits hfits (hg h)
  · rintro ⟨i, hdecode, hname⟩
    obtain ⟨row', hrow', hname', hfits⟩ := Laws.FitsItsRow.statement i
    obtain rfl := row_eq_of_mnemonic_eq hrow' hrow (hname'.trans hname)
    rw [← (encode_of_decode hdecode).2]
    exact eq_of_beq hfits

/-- Settles O3: the two are compared by their fields, the fixed bits of each row standing for its words. -/
theorem decoderAgreesWithOpcodeTable : Obligations.DecoderAgreesWithOpcodeTable :=
  fun w _ hrow => fits_iff_decode w hrow

/-- Settles O4: the word decodes to one instruction, whose mnemonic names one row. -/
theorem noWordFitsTwoRows : Obligations.NoWordFitsTwoRows := by
  intro w r q hr hq hfitsr hfitsq
  obtain ⟨i, hi, hri⟩ := (fits_iff_decode w hr).mp hfitsr
  obtain ⟨j, hj, hqj⟩ := (fits_iff_decode w hq).mp hfitsq
  obtain rfl : i = j := Except.ok.inj (hi.symm.trans hj)
  exact row_eq_of_mnemonic_eq hr hq (hri.symm.trans hqj)

/-! ### The words that are no instruction -/

/-! What R88's table lists under each opcode is what that opcode's decoder rejects. -/

theorem decodeLoad_eq_error_iff (w : Word) :
    (∃ e, decodeLoad w = .error e) ↔ funct3Field w ∈ [0b011#3, 0b110#3, 0b111#3] := by
  rcases funct3_cases (funct3Field w) with hf | hf | hf | hf | hf | hf | hf | hf <;> simp [decodeLoad, hf]

theorem decodeStore_eq_error_iff (w : Word) :
    (∃ e, decodeStore w = .error e) ↔ funct3Field w ∈ [0b011#3, 0b100#3, 0b101#3, 0b110#3, 0b111#3] := by
  rcases funct3_cases (funct3Field w) with hf | hf | hf | hf | hf | hf | hf | hf <;> simp [decodeStore, hf]

theorem decodeBranch_eq_error_iff (w : Word) :
    (∃ e, decodeBranch w = .error e) ↔ funct3Field w ∈ [0b010#3, 0b011#3] := by
  rcases funct3_cases (funct3Field w) with hf | hf | hf | hf | hf | hf | hf | hf <;> simp [decodeBranch, hf]

theorem decodeJalr_eq_error_iff (w : Word) : (∃ e, decodeJalr w = .error e) ↔ funct3Field w ≠ 0b000#3 := by
  by_cases hf : funct3Field w = 0b000#3 <;> simp [decodeJalr, hf]

theorem decodeAluImm_eq_error_iff (w : Word) : (∃ e, decodeAluImm w = .error e) ↔
    (funct3Field w = 0b001#3 ∧ funct7Field w ≠ 0b0000000#7) ∨
    (funct3Field w = 0b101#3 ∧ funct7Field w ≠ 0b0000000#7 ∧ funct7Field w ≠ 0b0100000#7) := by
  unfold decodeAluImm
  split_ifs <;> simp [*]

theorem decodeAluReg_eq_error_iff (w : Word) : (∃ e, decodeAluReg w = .error e) ↔
    (funct7Field w ≠ 0b0000000#7 ∧ funct7Field w ≠ 0b0100000#7) ∨
    (funct7Field w = 0b0100000#7 ∧ funct3Field w ≠ 0b000#3 ∧ funct3Field w ≠ 0b101#3) := by
  unfold decodeAluReg
  split_ifs <;> simp [*]

end Sys2Proof

/-! ### The faults of an instruction -/

namespace Sys2Proof.Machine

/-- A transfer's only fault is that of its target (R155, R170). -/
theorem transferTo_eq_fault {s onward : State} {target : Word} {f : Fault}
    (h : transferTo s target onward = .fault f) : f = .instructionAddressMisaligned s.pc target := by
  unfold transferTo raise at h
  split at h
  · cases h
  · cases h; rfl

/-- A fault of an instruction records its own address, and is one R182 lists for its kind. -/
theorem exec_eq_fault {i : Instr} {s : State} {f : Fault} (h : exec i s = .fault f) :
    f.pc = s.pc ∧ (kindOf i).mayRaise f := by
  rcases exec_shape i s with ⟨w, widen, rd, rs1, imm, hkind, -, hexec, -⟩ | ⟨w, rs2, rs1, imm, hkind, -, hexec⟩ |
    ⟨rd, v, -, -, hexec, -⟩ | ⟨cond, off, hkind, -, hexec⟩ | ⟨rd, target, hkind, -, hexec, -⟩ <;> rw [hexec] at h
  · rw [hkind]
    rcases memRead_eq_fault (loadInto_eq_fault_iff.mp h) with ⟨hna, rfl⟩ | rfl
    · cases w with
      | byte => rw [aligned_byte] at hna; cases hna
      | half | word => exact ⟨rfl, trivial⟩
    · cases w <;> exact ⟨rfl, trivial⟩
  · rw [hkind]
    rcases memWrite_eq_fault (storeFrom_eq_fault_iff.mp h) with ⟨hna, rfl⟩ | rfl
    · cases w with
      | byte => rw [aligned_byte] at hna; cases hna
      | half | word => exact ⟨rfl, trivial⟩
    · cases w <;> exact ⟨rfl, trivial⟩
  · cases h
  · rw [hkind]
    cases cond with
    | true => obtain rfl := transferTo_eq_fault h; exact ⟨rfl, trivial⟩
    | false => cases h
  · rw [hkind]
    obtain rfl := transferTo_eq_fault h
    exact ⟨rfl, trivial⟩

/-- R182 lists `IllegalInstruction` for no kind: it is the decoder's. -/
theorem Kind.not_mayRaise_illegalInstruction (k : Kind) (pc w : Word) :
    ¬k.mayRaise (.illegalInstruction pc w) := by
  cases k with
  | load width | store width => cases width <;> exact id
  | arithmetic | branch | jump => exact id

/-- No instruction that decoded raises `IllegalInstruction` (R88, R182). -/
theorem exec_ne_illegalInstruction (i : Instr) (s : State) (pc w : Word) :
    exec i s ≠ .fault (.illegalInstruction pc w) := by
  intro h
  obtain ⟨-, hraise⟩ := exec_eq_fault h
  exact Kind.not_mayRaise_illegalInstruction (kindOf i) pc w hraise

/-- A step raises `IllegalInstruction` exactly when the fetched word does not decode (R26, R88). -/
theorem step_eq_illegalInstruction_iff {s s' : State} {w : Word} (hfetch : fetch s = .next (w, s')) :
    step s = .fault (.illegalInstruction s.pc w) ↔ ∃ e, decode w = .error e := by
  cases hdecode : decode w with
  | ok i => simp [step_of_fetch hfetch hdecode, exec_ne_illegalInstruction]
  | error e =>
    obtain ⟨-, -, -, rfl⟩ := fetch_eq_next hfetch
    simp [step, hfetch, decodeOrRaise, raise, hdecode]

/-- Settles O5: R88's table, an opcode at a time; the three without `funct3` reject nothing, and no other is known. -/
theorem unlistedWordsFault : Obligations.UnlistedWordsFault := by
  intro s s' w hfetch
  rw [step_eq_illegalInstruction_iff hfetch]
  unfold decode
  split_ifs with hload himm hauipc hstore hreg hlui hbranch hjalr hjal
  · simp [decodeLoad_eq_error_iff, hload]
  · simp [decodeAluImm_eq_error_iff, himm]
  · simp [hauipc]
  · simp [decodeStore_eq_error_iff, hstore]
  · simp [decodeAluReg_eq_error_iff, hreg]
  · simp [hlui]
  · simp [decodeBranch_eq_error_iff, hbranch]
  · simp [decodeJalr_eq_error_iff, hjalr]
  · simp [hjal]
  · simp [hload, himm, hauipc, hstore, hreg, hlui, hbranch, hjalr, hjal]

end Sys2Proof.Machine

/-! ### Upper immediates, branches and jumps -/

namespace Sys2Proof.Machine

/-- An instruction that puts `v` in `rd` yields it (R110, R125, R126, R140). -/
theorem yields_of_putResult {i : Instr} {s : State} {rd : Reg} {v : Word} {P : Word → Prop}
    (hexec : exec i s = putResult s rd v) (hP : P v) : Yields i s rd P :=
  ⟨_, v, hexec, hP, writesReg_writeReg (State.advance_regs _) rfl, pcAdvanced_of_eq (by simp),
    State.byteAt_congr (by simp), by simp, by simp, by simp⟩

/-- Twelve zeros below `upimm` multiply it by 4096 (R81). -/
theorem upperWord_toNat (upimm : BitVec 20) : (upperWord upimm).toNat = upimm.toNat * 4096 := by
  rw [upperWord, BitVec.toNat_append]
  simp [Nat.shiftLeft_eq]

/-- Settles O26: the value of `imm_U`, alone or added to `pc`. -/
theorem upperImmediates : Obligations.UpperImmediates := fun s rd upimm =>
  ⟨yields_of_putResult rfl (upperWord_toNat upimm),
    yields_of_putResult rfl (by rw [BitVec.toNat_add, upperWord_toNat])⟩

/-- A transfer to a multiple of 4 (R155, R170). -/
theorem transferTo_of_aligned {s onward : State} {target : Word} (h : target.toNat % 4 = 0) :
    transferTo s target onward = .next (onward.setPc target) := if_pos (aligned_iff.mpr h)

/-- A transfer to any other address (R155, R170). -/
theorem transferTo_of_misaligned {s onward : State} {target : Word} (h : target.toNat % 4 ≠ 0) :
    transferTo s target onward = .fault (.instructionAddressMisaligned s.pc target) :=
  if_neg (mt aligned_iff.mp h)

/-- The outcomes of `branchWhen` are R155's, its condition read as `P`. -/
theorem branchBehaves_of_exec {i : Instr} {s : State} {c : Bool} {off : BitVec 13} {P : Prop}
    (hexec : exec i s = branchWhen s c off) (hc : c = true ↔ P) : BranchBehaves i s P off := by
  refine ⟨fun hP => ?_, fun hP htarget => ?_, fun hP htarget => ?_⟩ <;> rw [hexec, branchWhen]
  · rw [if_neg (mt hc.mp hP)]
    exact ⟨_, rfl, pcAdvanced_of_eq (State.advance_pc s), State.readReg_advance s, ⟨fun _ => rfl, rfl, rfl, rfl⟩⟩
  · rw [if_pos (hc.mpr hP), branchTarget_eq_ofInt, transferTo_of_aligned htarget]
    exact ⟨_, rfl, rfl, State.readReg_setPc s _, ⟨fun _ => rfl, rfl, rfl, rfl⟩⟩
  · rw [if_pos (hc.mpr hP), branchTarget_eq_ofInt, transferTo_of_misaligned htarget]

/-- Settles O27: two words are equal when their unsigned readings are. -/
theorem equalityBranches : Obligations.EqualityBranches := fun s rs1 rs2 off =>
  ⟨branchBehaves_of_exec rfl (by simp [BitVec.toNat_inj]), branchBehaves_of_exec rfl (by simp [BitVec.toNat_inj])⟩

/-- Settles O28: the signed order for two, the unsigned one for the others. -/
theorem orderBranches : Obligations.OrderBranches := fun s rs1 rs2 off =>
  ⟨branchBehaves_of_exec rfl (by simp [ltSigned]), branchBehaves_of_exec rfl (by simp [ltSigned]),
    branchBehaves_of_exec rfl (by simp [ltUnsigned]), branchBehaves_of_exec rfl (by simp [ltUnsigned])⟩

/-- The outcomes of `jumpAndLink` are R170's. -/
theorem jumpBehaves_of_exec {i : Instr} {s : State} {rd : Reg} {target : Word}
    (hexec : exec i s = jumpAndLink s rd target) : JumpBehaves i s rd target := by
  refine ⟨fun htarget => ?_, fun htarget => ?_⟩ <;> rw [hexec, jumpAndLink]
  · rw [transferTo_of_aligned htarget]
    exact ⟨_, linkValue s, rfl, rfl, BitVec.toNat_add .., writesReg_writeReg (State.setPc_regs _ _) rfl,
      State.byteAt_congr (by simp), by simp, by simp, by simp⟩
  · rw [transferTo_of_misaligned htarget]

/-- Settles O29: the shape of a jump, at the target of `jal` in integer arithmetic. -/
theorem jalLinksAndJumps : Obligations.JalLinksAndJumps := fun s _ off =>
  jumpBehaves_of_exec (jumpTarget_eq_ofInt s off ▸ rfl)

end Sys2Proof.Machine

/-! ### Words the source prints -/

namespace Sys2Proof

/-- Settles O6: the decoder is run on the eight words. -/
theorem printedWordsDecode : Obligations.PrintedWordsDecode := by
  unfold Obligations.PrintedWordsDecode
  decide

end Sys2Proof

namespace Sys2Proof.Machine

/-! ### Register and immediate arithmetic -/

/-- A difference modulo 2^32 in the unsigned reading (R142). -/
theorem sub_toNat (a b : Word) : (a - b).toNat = (a.toNat + 4294967296 - b.toNat) % 4294967296 := by
  have hb : b.toNat < 4294967296 := b.isLt
  rw [BitVec.toNat_sub]
  omega

/-- Settles O22: the two readings of a sum and of a difference; the immediate keeps its signed value. -/
theorem addSubWrap : Obligations.AddSubWrap := fun _ _ _ _ imm =>
  ⟨yields_of_putResult rfl ⟨BitVec.toNat_add .., BitVec.toInt_add ..⟩,
    yields_of_putResult rfl ⟨sub_toNat .., BitVec.toInt_sub⟩,
    yields_of_putResult rfl (by rw [BitVec.toInt_add, immWord_toInt])⟩

/-! ### Logic -/

/-- Bit `k` of the sign-extended immediate: bits 31:12 are copies of bit 11 (R78). -/
theorem immWord_getLsbD (imm : BitVec 12) {k : Nat} (hk : k < 32) :
    (immWord imm).getLsbD k = imm.getLsbD (min k 11) := by
  rw [immWord, BitVec.getLsbD_signExtend]
  by_cases hlow : k < 12
  · simp [hk, hlow, Nat.min_eq_left (Nat.le_of_lt_succ hlow)]
  · simp [hk, hlow, BitVec.msb_eq_getLsbD_last, Nat.min_eq_right (show 11 ≤ k by omega)]

/-- Settles O23: a bit of each operation, and of the immediate. -/
theorem logicIsBitwise : Obligations.LogicIsBitwise := fun _ _ _ _ imm =>
  ⟨yields_of_putResult rfl fun _ _ => BitVec.getLsbD_xor,
    yields_of_putResult rfl fun _ _ => BitVec.getLsbD_or,
    yields_of_putResult rfl fun _ _ => BitVec.getLsbD_and,
    yields_of_putResult rfl fun _ hk => by rw [BitVec.getLsbD_xor, immWord_getLsbD imm hk],
    yields_of_putResult rfl fun _ hk => by rw [BitVec.getLsbD_or, immWord_getLsbD imm hk],
    yields_of_putResult rfl fun _ hk => by rw [BitVec.getLsbD_and, immWord_getLsbD imm hk]⟩

/-! ### Shifts -/

/-- A left shift multiplies modulo 2^32 (R112, R143). -/
theorem shiftLeft_toNat (a : Word) (n : Nat) : (shiftLeft a n).toNat = a.toNat * 2 ^ n % 4294967296 := by
  rw [shiftLeft, BitVec.toNat_shiftLeft, Nat.shiftLeft_eq]

/-- A logical right shift is the unsigned quotient (R116, R147). -/
theorem shiftRightLogical_toNat (a : Word) (n : Nat) : (shiftRightLogical a n).toNat = a.toNat / 2 ^ n := by
  rw [shiftRightLogical, BitVec.toNat_ushiftRight, Nat.shiftRight_eq_div_pow]

/-- Settles O24: the three shifts by any amount, at `x[rs2]` modulo 32 and at `uimm`. -/
theorem shiftsScale : Obligations.ShiftsScale := fun s _ _ rs2 _ =>
  ⟨yields_of_putResult rfl (shiftAmount_eq_mod s rs2 ▸ shiftLeft_toNat ..),
    yields_of_putResult rfl (shiftAmount_eq_mod s rs2 ▸ shiftRightLogical_toNat ..),
    yields_of_putResult rfl (shiftAmount_eq_mod s rs2 ▸ shiftRightArith_toInt ..),
    yields_of_putResult rfl (shiftLeft_toNat ..),
    yields_of_putResult rfl (shiftRightLogical_toNat ..),
    yields_of_putResult rfl (shiftRightArith_toInt ..)⟩

/-! ### Comparisons -/

/-- The sign-extended immediate read as unsigned is its value modulo 2^32 (R114). -/
theorem immWord_toNat (imm : BitVec 12) : ((immWord imm).toNat : Int) = imm.toInt % 4294967296 := by
  have hlt : (immWord imm).toNat < 4294967296 := (immWord imm).isLt
  rw [← immWord_toInt, BitVec.toInt_eq_toNat_cond]
  split <;> omega

/-- A comparison's word is 1 or 0 as what it decides holds (R10). -/
theorem truthWord_decide_toNat (P : Prop) [Decidable P] : (truthWord (decide P)).toNat = if P then 1 else 0 := by
  by_cases hP : P <;> simp [truthWord, hP]

/-- Settles O25: each writes the truth of its comparison, with the immediate's signed or unsigned reading. -/
theorem comparisonsWriteTruth : Obligations.ComparisonsWriteTruth := fun _ _ _ _ imm =>
  ⟨yields_of_putResult rfl (truthWord_decide_toNat _),
    yields_of_putResult rfl (truthWord_decide_toNat _),
    yields_of_putResult rfl (by rw [← immWord_toInt]; exact truthWord_decide_toNat _),
    yields_of_putResult rfl (by
      simp only [← immWord_toNat, Nat.cast_lt]
      exact truthWord_decide_toNat _)⟩

end Sys2Proof.Machine

namespace Sys2Proof.Machine

/-! ### `jalr` -/

/-- Settles O30: the shape of a jump, at the target of `jalr` in integer arithmetic, read at each setting of
`JALR_CLEARS_BIT0`. -/
theorem jalrLinksAndJumps : Obligations.JalrLinksAndJumps := by
  rintro s rd rs1 imm sum rfl
  have hjump : JumpBehaves (.jalr rd rs1 imm) s rd (nextPc (.jalr rd rs1 imm) s) :=
    jumpBehaves_of_exec (congrArg (jumpAndLink s rd) (jalrTarget_eq_nextPc s rd rs1 imm))
  refine ⟨fun hclears => ?_, fun hkeeps => ?_⟩
  · simpa only [nextPc, hclears, if_true] using hjump
  · simpa only [nextPc, hkeeps, Bool.false_eq_true, if_false] using hjump

end Sys2Proof.Machine

namespace Sys2Proof.Machine

/-! ### The faults of a step -/

/-- The fetch's only fault is the access fault at `pc` (R46). -/
theorem fetch_eq_fault {s : State} {f : Fault} (h : fetch s = .fault f) :
    f = .instructionAccessFault s.pc s.pc := by
  unfold fetch raise at h
  split at h
  · cases h; rfl
  · split at h <;> cases h

/-- The decoder's only fault is `IllegalInstruction`, for a word that decodes to nothing (R26, R88). -/
theorem decodeOrRaise_eq_fault {w : Word} {s : State} {f : Fault} (h : decodeOrRaise w s = .fault f) :
    f = .illegalInstruction s.pc w ∧ ∃ e, decode w = .error e := by
  unfold decodeOrRaise raise at h
  cases hdecode : decode w with
  | ok i => rw [hdecode] at h; cases h
  | error e => rw [hdecode] at h; cases h; exact ⟨rfl, e, rfl⟩

/-- The decoder answers an instruction only if the word decodes to it (R26). -/
theorem decodeOrRaise_eq_next {w : Word} {s : State} {i : Instr} (h : decodeOrRaise w s = .next i) :
    decode w = .ok i := by
  unfold decodeOrRaise raise at h
  cases hdecode : decode w with
  | ok j => rw [hdecode] at h; cases h; rfl
  | error e => rw [hdecode] at h; cases h

/-- A fault of a step is its fetch's, its decoder's or its instruction's (R26, R185). -/
theorem step_eq_fault {s : State} {f : Fault} (h : step s = .fault f) :
    fetch s = .fault f ∨ ∃ w s', fetch s = .next (w, s') ∧
      (decodeOrRaise w s' = .fault f ∨ ∃ i, decode w = .ok i ∧ exec i s' = .fault f) := by
  rcases andThen_eq_fault h with hfetch | ⟨⟨w, s'⟩, hfetch, hrest⟩
  · exact .inl hfetch
  · rcases andThen_eq_fault hrest with hdecode | ⟨i, hdecode, hexec⟩
    · exact .inr ⟨w, s', hfetch, .inl hdecode⟩
    · exact .inr ⟨w, s', hfetch, .inr ⟨i, decodeOrRaise_eq_next hdecode, hexec⟩⟩

/-- Settles O35: each stage's faults by its own lemma; the fetch leaves `pc` at the raising instruction. -/
theorem faultsOfEachInstruction : Obligations.FaultsOfEachInstruction := by
  intro s f hstep
  rcases step_eq_fault hstep with hfetch | ⟨w, s', hfetch, hrest⟩
  · obtain rfl := fetch_eq_fault hfetch
    exact ⟨rfl, .inl ⟨rfl, hfetch⟩⟩
  · have hpc : s'.pc = s.pc := by obtain ⟨-, -, -, rfl⟩ := fetch_eq_next hfetch; rfl
    rcases hrest with hillegal | ⟨i, hdecode, hexec⟩
    · obtain ⟨rfl, e, herror⟩ := decodeOrRaise_eq_fault hillegal
      rw [hpc]
      exact ⟨rfl, .inr ⟨w, s', hfetch, .inl ⟨rfl, fun i => by simp [herror]⟩⟩⟩
    · obtain ⟨hfpc, hraise⟩ := exec_eq_fault hexec
      exact ⟨hfpc.trans hpc, .inr ⟨w, s', hfetch, .inr ⟨i, hdecode, hexec, hraise⟩⟩⟩

end Sys2Proof.Machine

namespace Sys2Proof.Machine

/-! ### The order of the record of stores -/

/-- An instruction that completes leaves the record of stores alone, or it is a store and appends one of its own
width. -/
theorem exec_keeps_or_appends_store {i : Instr} {s t : State} (h : exec i s = .next t) :
    t.stores = s.stores ∨ ∃ e, t.stores = s.stores ++ [e] ∧ kindOf i = .store e.width := by
  rcases exec_eq_next h with ⟨w, rd, v, n, -, -, rfl⟩ | ⟨w, a, v, hkind, -, -, -, rfl⟩ | ⟨rd, v, -, -, rfl⟩ |
    ⟨-, -, rfl | ⟨a, -, rfl⟩⟩ | ⟨rd, -, -, a, -, rfl⟩
  · exact .inl (by simp) -- a load
  · exact .inr ⟨⟨a, w, widthValue w v⟩, by simp, hkind⟩
  · exact .inl (by simp) -- arithmetic
  · exact .inl rfl -- a branch not taken
  · exact .inl rfl -- a branch taken
  · exact .inl (by simp) -- a jump

/-- Settles O39: the fetch records nothing, and the instruction at most one store, of its own width. -/
theorem storesRecordedInOrder : Obligations.StoresRecordedInOrder := by
  intro s t hstep
  obtain ⟨w, s', i, hfetch, hdecode, hexec⟩ := step_eq_next hstep
  have hstores : s'.stores = s.stores := by obtain ⟨-, -, -, rfl⟩ := fetch_eq_next hfetch; rfl
  rw [← hstores]
  rcases exec_keeps_or_appends_store hexec with hkept | ⟨e, happended, hkind⟩
  · exact .inl hkept
  · exact .inr ⟨e, happended, w, s', i, hfetch, hdecode, hkind⟩

/-! ### The default `HALT` -/

@[simp] theorem State.setPc_self (s : State) : s.setPc s.pc = s := rfl

/-- A taken branch of offset 0 changes nothing (R155, R218). -/
theorem branchWhen_self {s : State} {c : Bool} {off : BitVec 13} (hpc : s.pc.toNat % 4 = 0)
    (h : (off == 0#13 && c) = true) : branchWhen s c off = .next s := by
  obtain ⟨rfl, rfl⟩ : off = 0#13 ∧ c = true := by simpa using h
  have htarget : branchTarget s 0#13 = s.pc := by simp [branchTarget]
  calc branchWhen s true 0#13 = transferTo s s.pc s := congrArg (transferTo s · s) htarget
    _ = .next s := transferTo_of_aligned hpc

/-- A jump to its own address that discards its link changes nothing (R22, R170, R218). -/
theorem jumpAndLink_self {s : State} (hpc : s.pc.toNat % 4 = 0) : jumpAndLink s 0 s.pc = .next s :=
  transferTo_of_aligned hpc

/-- An instruction that transfers to itself leaves the state as it is: the branches and jumps of R218, at a `pc` that is
a multiple of 4. -/
theorem exec_of_selfTransfer {i : Instr} {s : State} (hpc : s.pc.toNat % 4 = 0) (h : selfTransfer i s = true) :
    exec i s = .next s := by
  cases i with
  | beq | bne | blt | bge | bltu | bgeu => exact branchWhen_self hpc h
  | jal rd off =>
    obtain ⟨rfl, rfl⟩ : rd = 0 ∧ off = 0#21 := by simpa [selfTransfer] using h
    have htarget : jumpTarget s 0#21 = s.pc := by simp [jumpTarget]
    exact (congrArg (jumpAndLink s 0) htarget).trans (jumpAndLink_self hpc)
  | jalr rd rs1 imm =>
    obtain ⟨rfl, htarget⟩ : rd = 0 ∧ jalrTarget s rs1 imm = s.pc := by simpa [selfTransfer] using h
    exact (congrArg (jumpAndLink s 0) htarget).trans (jumpAndLink_self hpc)
  | _ => exact absurd h Bool.false_ne_true

/-- A fetch that counted no draw changed nothing (R46, R49). -/
theorem fetch_state_of_draws_eq {s s' : State} {w : Word} (h : fetch s = .next (w, s')) (hdraws : s'.draws = s.draws) :
    s' = s := by
  obtain ⟨-, -, -, rfl⟩ := fetch_eq_next h
  exact congrArg (fun n => { s with draws := n }) hdraws

/-- What the default `HALT` says of a state (R218, log entry 16): an aligned `pc`, and a fetch that changes nothing, of
an instruction that transfers to itself. -/
theorem State.halts_iff {s : State} : s.halts = true ↔
    s.pc.toNat % 4 = 0 ∧ ∃ w i, fetch s = .next (w, s) ∧ decode w = .ok i ∧ selfTransfer i s = true := by
  constructor
  · intro h
    unfold State.halts at h
    split at h
    next w s' hfetch =>
      split at h
      next i hdecode =>
        obtain ⟨⟨hpc, hdraws⟩, hself⟩ : (aligned s.pc .word = true ∧ s'.draws = s.draws) ∧ selfTransfer i s = true := by
          simpa using h
        obtain rfl := fetch_state_of_draws_eq hfetch hdraws
        exact ⟨aligned_iff.mp hpc, w, i, hfetch, hdecode, hself⟩
      next => simp at h
    next => cases h
    next => cases h
  · rintro ⟨hpc, w, i, hfetch, hdecode, hself⟩
    have haligned : aligned s.pc .word = true := aligned_iff.mpr hpc
    simp [State.halts, hfetch, hdecode, hself, haligned]

/-- A halted state is a fixed point of the step (R218). -/
theorem step_of_halts {s : State} (h : s.halts = true) : step s = .next s := by
  obtain ⟨hpc, w, i, hfetch, hdecode, hself⟩ := State.halts_iff.mp h
  calc step s = exec i s := step_of_fetch hfetch hdecode
    _ = .next s := exec_of_selfTransfer hpc hself

/-! ### Runs -/

section
variable {M : Host.Core} {s t u : M.State}

/-- A run whose first step answers goes on from there. -/
theorem run_succ_of_step (h : M.step s = .next t) (n : Nat) : M.run (n + 1) s = M.run n t := by
  rw [Host.Core.run, h]

/-- A run that answers after its first step answered in that step, and so did the rest of the run. -/
theorem run_succ_eq_next {n : Nat} (h : M.run (n + 1) s = .next t) :
    ∃ s', M.step s = .next s' ∧ M.run n s' = .next t := by
  rw [Host.Core.run] at h
  cases hstep : M.step s with
  | next s' => rw [hstep] at h; exact ⟨s', rfl, h⟩
  | fault f => rw [hstep] at h; cases h
  | refused q => rw [hstep] at h; cases h

/-- A run goes on from the state it has reached. -/
theorem run_add_of_next {n : Nat} (h : M.run n s = .next t) (k : Nat) : M.run (n + k) s = M.run k t := by
  induction n generalizing s with
  | zero => cases h; rw [Nat.zero_add]
  | succ n ih =>
    obtain ⟨s', hstep, hrest⟩ := run_succ_eq_next h
    calc M.run (n + 1 + k) s = M.run (n + k + 1) s := by rw [Nat.add_right_comm]
      _ = M.run (n + k) s' := run_succ_of_step hstep (n + k)
      _ = M.run k t := ih hrest

/-- A run from a fixed point of the step stays there. -/
theorem run_of_fixed (h : M.step s = .next s) (n : Nat) : M.run n s = .next s := by
  induction n with
  | zero => rfl
  | succ n ih => exact (run_succ_of_step h n).trans ih

/-- A run that has reached a fixed point of the step is there at every later count of steps. -/
theorem eq_of_fixed_of_le {n m : Nat} (ht : M.run n s = .next t) (hfixed : M.step t = .next t) (hle : n ≤ m)
    (hu : M.run m s = .next u) : t = u := by
  obtain ⟨k, rfl⟩ := Nat.exists_eq_add_of_le hle
  rw [run_add_of_next ht, run_of_fixed hfixed] at hu
  exact Host.Outcome.next.inj hu

end

/-- Settles O46: every step from a halted state is a self-transfer, which changes nothing. -/
theorem haltIsFixedPoint : Obligations.HaltIsFixedPoint := fun _ n h => run_of_fixed (step_of_halts h) n

/-- Settles O47: of two halted states of a run, the one reached in fewer steps is where the other is. -/
theorem finalStateIsUnique : Obligations.FinalStateIsUnique := by
  rintro s t u ⟨n, ht⟩ ⟨m, hu⟩ hthalt huhalt
  rcases Nat.le_total n m with hle | hle
  · exact eq_of_fixed_of_le ht (step_of_halts hthalt) hle hu
  · exact (eq_of_fixed_of_le hu (step_of_halts huhalt) hle ht).symm

end Sys2Proof.Machine
